-- ==== Sys2Proof/Word.lean ====
section
/-! DEFINITION. The words the block computes with: rule R10 of 00_scope.md (a word is a 64-bit unsigned value,
arithmetic is modulo 2^64, shifts discard what leaves the word). -/

namespace Sys2Proof

/-- A word (R10). `+`, `-`, `<<<`, `>>>`, `^^^`, `&&&`, `|||` and `~~~` on it are R10's word operations. -/
abbrev Word := BitVec 64

/-- A host-register address (R60): 11 bits, naming a whole word. -/
abbrev HAddr := BitVec 11

/-- A host transaction record HOSTTXN (R88): bit 75 W, bits 74:64 A, bits 63:0 D. -/
abbrev Record := BitVec 76

end Sys2Proof
end

