-- ==== Sys2Proof/Syntax.lean ====
section
/-! DEFINITION. The instructions: one constructor per row of the opcode table (30_encoding.md R84, R88). -/

namespace Sys2Proof

/-- The ten commands of the engine (CMDW, R84) and the two host accesses (HOSTTXN, R88). An IMM16 operand is a number
(a seed length, a bit count, a trial count: R82); `WellFormed` bounds it to 16 bits. -/
inductive Instr where
  /-- R203 -/
  | nop
  /-- R110: `len` is the declared seed length L -/
  | iseed (len : Nat)
  /-- R111 -/
  | inext
  /-- R155: `n` is the bit count -/
  | irandbits (n : Nat)
  /-- R134 -/
  | xseed
  /-- R135 -/
  | xnext
  /-- R156: `n` is the bit count -/
  | xrandbits (n : Nat)
  /-- R171: `k` is the trial count, `f` the base mode F -/
  | ocfg (k : Nat) (f : Bool)
  /-- R177 -/
  | fermat
  /-- R178 -/
  | millerrabin
  /-- R64: write `v` to the host register at `a` -/
  | hwr (a : HAddr) (v : Word)
  /-- R68: read the host register at `a` -/
  | hrd (a : HAddr)
deriving DecidableEq, Repr

end Sys2Proof
end

