-- ==== Sys2Proof/WellFormed.lean ====
section
/-! DEFINITION. Which instruction terms an encoding exists for. The only check the encodings call for is that an IMM16
operand fits its field (R82: 0 to 65535); the other operands are bit vectors of their field's width. A value outside
the legal range of its row (R87) is well formed: its word decodes to the row and the command raises the operand
error. -/

namespace Sys2Proof

/-- R82: the value fits the 16-bit immediate field. -/
def fitsImm16 (n : Nat) : Bool := n ≤ 65535

/-- The instruction has an encoding. -/
def Instr.wellFormed : Instr → Bool
  | .iseed len => fitsImm16 len
  | .irandbits n => fitsImm16 n
  | .xrandbits n => fitsImm16 n
  | .ocfg k _ => fitsImm16 k
  | .nop | .inext | .xseed | .xnext | .fermat | .millerrabin => true
  | .hwr _ _ | .hrd _ => true

end Sys2Proof
end

