-- ==== Sys2Proof/Decode.lean ====
section
/-! DEFINITION. Decoding and encoding (30_encoding.md): the command word CMDW, the host transaction record HOSTTXN, and
the two entry points by the opcode table's bit numbering. -/

namespace Sys2Proof

/-- What carries an instruction: a command word, the data of a write to CMD (R80), or a host transaction record (R88). -/
inductive Code where
  | command (w : Word)
  | record (r : Record)
deriving DecidableEq, Repr

/-- Why a code stands for no instruction. -/
inductive DecodeError where
  /-- the word matches no row of R84 (R86: the engine raises ILLEGAL) -/
  | illegalCommand
  /-- a read record with D ≠ 0 (R88: a trace reader refuses it) -/
  | malformedRecord
deriving DecidableEq, Repr

/-! ### The fields of a command word (R80) -/

/-- OP = w[7:0]. -/
def opField (w : Word) : BitVec 8 := w.extractLsb' 0 8
/-- F = w[8] (R83). -/
def flagField (w : Word) : Bool := w.getLsbD 8
/-- RSV0 = w[15:9]. -/
def rsv0Field (w : Word) : BitVec 7 := w.extractLsb' 9 7
/-- IMM16 = w[31:16], read as an unsigned number (R82). -/
def imm16Field (w : Word) : Nat := (w.extractLsb' 16 16).toNat
/-- RSV1 = w[63:32]. -/
def rsv1Field (w : Word) : BitVec 32 := w.extractLsb' 32 32

/-- One row of R84's opcode map: `(w &&& mask) = pattern` selects it, and `operands` takes the operand fields. -/
structure Row where
  mask : Word
  pattern : Word
  operands : Word → Instr

/-- No operand field. -/
def maskNone : Word := 0xFFFFFFFFFFFFFFFF
/-- IMM16 is an operand. -/
def maskImm16 : Word := 0xFFFFFFFF0000FFFF
/-- IMM16 and F are operands. -/
def maskImm16F : Word := 0xFFFFFFFF0000FEFF

/-- R84, row for row. -/
def opcodeRows : List Row :=
  [ ⟨maskNone,   0x0000000000000000, fun _ => .nop⟩,
    ⟨maskImm16,  0x0000000000000001, fun w => .iseed (imm16Field w)⟩,
    ⟨maskNone,   0x0000000000000002, fun _ => .inext⟩,
    ⟨maskImm16,  0x0000000000000003, fun w => .irandbits (imm16Field w)⟩,
    ⟨maskNone,   0x0000000000000008, fun _ => .xseed⟩,
    ⟨maskNone,   0x0000000000000009, fun _ => .xnext⟩,
    ⟨maskImm16,  0x000000000000000A, fun w => .xrandbits (imm16Field w)⟩,
    ⟨maskImm16F, 0x0000000000000010, fun w => .ocfg (imm16Field w) (flagField w)⟩,
    ⟨maskNone,   0x0000000000000011, fun _ => .fermat⟩,
    ⟨maskNone,   0x0000000000000012, fun _ => .millerrabin⟩ ]

/-- The word selects the row (R84). -/
def Row.selects (r : Row) (w : Word) : Bool := w &&& r.mask == r.pattern

/-- DECODE (R86). -/
def decodeCommand (w : Word) : Except DecodeError Instr :=
  match opcodeRows.find? (·.selects w) with
  | some r => .ok (r.operands w)
  | none => .error .illegalCommand

/-! ### The fields of a host transaction record (R88) -/

/-- W: 1 for a write. -/
def txnWrite (r : Record) : Bool := r.getLsbD 75
/-- A: the host-register address. -/
def txnAddr (r : Record) : HAddr := r.extractLsb' 64 11
/-- D: the value written, 0 for a read. -/
def txnData (r : Record) : Word := r.extractLsb' 0 64

/-- R88: W = 1 is HWR(A, D); W = 0 is HRD(A), malformed when D ≠ 0. -/
def decodeRecord (r : Record) : Except DecodeError Instr :=
  if txnWrite r then .ok (.hwr (txnAddr r) (txnData r))
  else if txnData r = 0 then .ok (.hrd (txnAddr r))
  else .error .malformedRecord

/-- The decoder, total on both carriers. -/
def decode : Code → Except DecodeError Instr
  | .command w => decodeCommand w
  | .record r => decodeRecord r

/-! ### Encoding -/

/-- R89: `word = (IMM16 << 16) | (F << 8) | OP`. -/
def commandWord (op : BitVec 8) (imm : Nat) (f : Bool) : Word :=
  (BitVec.ofNat 64 imm <<< 16) ||| ((BitVec.ofBool f).setWidth 64 <<< 8) ||| op.setWidth 64

/-- R88: the record with W, A and D. -/
def recordOf (write : Bool) (a : HAddr) (d : Word) : Record :=
  BitVec.ofBool write ++ (a ++ d)

/-- The code of an instruction (R84, R88, R89). -/
def encode : Instr → Code
  | .nop => .command (commandWord 0x00 0 false)
  | .iseed len => .command (commandWord 0x01 len false)
  | .inext => .command (commandWord 0x02 0 false)
  | .irandbits n => .command (commandWord 0x03 n false)
  | .xseed => .command (commandWord 0x08 0 false)
  | .xnext => .command (commandWord 0x09 0 false)
  | .xrandbits n => .command (commandWord 0x0A n false)
  | .ocfg k f => .command (commandWord 0x10 k f)
  | .fermat => .command (commandWord 0x11 0 false)
  | .millerrabin => .command (commandWord 0x12 0 false)
  | .hwr a v => .record (recordOf true a v)
  | .hrd a => .record (recordOf false a 0)

/-! ### The opcode table's numbering -/

/-- The code whose bits, numbered as the opcode table numbers them, are `w`: a row of at most 64 bits is a command word,
a longer one a host transaction record of 76 bits (R80, R88). Bits beyond the carrier make it none (log 12). -/
def tableCode (nbits w : Nat) : Option Code :=
  if nbits ≤ 64 then
    if w < 2 ^ 64 then some (.command (BitVec.ofNat 64 w)) else none
  else
    if w < 2 ^ 76 then some (.record (BitVec.ofNat 76 w)) else none

/-- The instruction the decoder reads from an opcode-table word. -/
def decodeTableWord (nbits w : Nat) : Option Instr :=
  match tableCode nbits w with
  | some c =>
    match decode c with
    | .ok i => some i
    | .error _ => none
  | none => none

end Sys2Proof
end

