-- ==== Sys2Proof/Config.lean ====
section
/-! DEFINITION. What an implementation fixes and the values the spec leaves free. The free values have no body: no
proof can see what they are. -/

namespace Sys2Proof

/-- DESIGN CHOICE (log 3): the number of limbs of the instance that `State.reset` describes. The spec leaves LIMBS open,
1 to 256 (R6); 95_test_vectors.md uses 4. Every other definition reads LIMBS from the state. -/
def Config.resetLimbs : Nat := 4

/-- DrawEntropy (R8, R222): the word the entropy source answers to its call number `i`. Free (log 5). -/
opaque Config.entropy : Nat → Word

/-- The base source (R8, R222): what stands behind its answer to call number `i`; `drawBase` brings it into the
asked range. Free (log 5). -/
opaque Config.base : Nat → Nat

/-- DrawAny64 (R12, R67, R241): the value number `i` that the hardware leaves unspecified. Free (log 4, log 5). -/
opaque Config.any : Nat → Word

end Sys2Proof
end

