-- ==== Sys2Proof/Machine/State.lean ====
section
/-! DEFINITION. The state of the block (10_state.md R20), its reset (70_reset_and_hazards.md R240, R241), and the reasons
a step can stop. Plain data throughout. -/

namespace Sys2Proof.Machine

/-! ### Register arrays of 256 words -/

/-- A register array of 256 words: MM, RSL (R31) and SEED (R36). -/
abbrev Pool := Vector Word 256

/-- The pool whose element `i` is `f i`. -/
def Pool.ofFn (f : Nat → Word) : Pool := ⟨⟨(List.range 256).map f⟩, by simp⟩

/-! ### The units -/

/-- The ISAAC64 unit (R31, R32): pool `mm`, output block `rsl`, accumulators, cursor. ICNT ranges over 0 to 256
(R7, R32), which the type says (log 8). -/
structure Isaac where
  mm : Pool
  rsl : Pool
  iaa : Word
  ibb : Word
  icc : Word
  icnt : Fin 257
deriving DecidableEq, Repr

/-- The Xorshift128+ unit (R34): XS0 and XS1. -/
structure Xorshift where
  s0 : Word
  s1 : Word
deriving DecidableEq, Repr

/-- The oracle configuration (R28, R29): K, FIXB and OBASE. -/
structure Oracle where
  k : BitVec 16
  fixb : Bool
  obase : Word
deriving DecidableEq, Repr

/-! ### Status -/

/-- The error codes of R211; codes 7 to 15 are never produced, so they are none of these. -/
inductive ErrCode where
  | ok
  | illegal
  | seedlen
  | degenerate
  | arg
  | notseeded
  | baserange
deriving DecidableEq, Repr

/-- STATUS (R24), field by field; its reserved bits read 0 and ignore writes, so they are no state. -/
structure Status where
  busy : Bool
  err : ErrCode
  ovr : Bool
  badaddr : Bool
  iseeded : Bool
  xseeded : Bool
deriving DecidableEq, Repr

/-! ### The world around the block (the model's own fields) -/

/-- What reaches the block from outside, in the order it happens (log 1). -/
inductive Input where
  /-- the host performs the access of this HOSTTXN record (R64, R68, R88) -/
  | access (r : Record)
  /-- the engine gets its turn before the next host access (R71, R73); nothing happens while it is not enabled -/
  | engineTurn
  /-- the platform asserts reset (R240) -/
  | reset
deriving DecidableEq, Repr

/-- The model's own fields: the inputs still to come, the word the last host read returned (R68), and the numbers of
the draws made so far (R8, R12). -/
structure Env where
  inputs : List Input
  rdata : Word
  entropyDraws : Nat
  baseDraws : Nat
  anyDraws : Nat
deriving DecidableEq, Repr

/-- The machine (R20): `limbs` is LIMBS, read as INFO (R27); `num` and `big` have LIMBS words each (R37, R38). -/
structure State where
  limbs : Nat
  status : Status
  pend : Word
  arg0 : Word
  arg1 : Word
  res : Word
  seed : Pool
  num : List Word
  big : List Word
  isaac : Isaac
  xs : Xorshift
  oracle : Oracle
  env : Env
deriving DecidableEq, Repr

/-- Why the machine stops with a fault. The spec names no such reason: a command error (R214) and a host-side
condition (R217) are next states, and every command terminates (R201). So there is none (log 13). -/
inductive Fault where
deriving DecidableEq, Repr

/-- Why a step has no meaning. -/
inductive Refusal where
  /-- Raised by `exec`'s arm of an instruction that has no meaning yet. Safe: nothing is claimed of it. -/
  | notModelled (mnemonic : String)
  /-- Raised by the step on a HOSTTXN read record with D ≠ 0, which is malformed and which R88 and 93 U10 have refused
  (log 11). Safe: no run goes through it. -/
  | malformedRecord
deriving DecidableEq, Repr

/-! ### Reset -/

/-- How many unspecified values one reset draws: MM, RSL, SEED (256 each), NUM, BIG (LIMBS each) and PEND. -/
def resetDraws (limbs : Nat) : Nat := 768 + 2 * limbs + 1

/-- R241: the state after reset of a block with `limbs` limbs, in surroundings `env`. Each unspecified word is a draw of
its own (R241, 92 D41; log 4), numbered on from `env.anyDraws`. -/
def State.afterReset (limbs : Nat) (env : Env) : State :=
  let d := env.anyDraws
  { limbs := limbs
    status := { busy := false, err := .ok, ovr := false, badaddr := false, iseeded := false, xseeded := false }
    pend := Config.any (d + (768 + 2 * limbs))
    arg0 := 0
    arg1 := 0
    res := 0
    seed := Pool.ofFn fun i => Config.any (d + (512 + i))
    num := (List.range limbs).map fun i => Config.any (d + (768 + i))
    big := (List.range limbs).map fun i => Config.any (d + (768 + limbs + i))
    isaac :=
      { mm := Pool.ofFn fun i => Config.any (d + i)
        rsl := Pool.ofFn fun i => Config.any (d + (256 + i))
        iaa := 0, ibb := 0, icc := 0, icnt := 0 }
    xs := { s0 := 0, s1 := 0 }
    oracle := { k := 5, fixb := false, obase := 0 }
    env := { env with anyDraws := d + resetDraws limbs } }

/-- The machine right after power-up reset: nothing has happened, nothing is waiting, no draw was made (log 2, 3, 4, 6). -/
def State.reset : State :=
  State.afterReset Config.resetLimbs { inputs := [], rdata := 0, entropyDraws := 0, baseDraws := 0, anyDraws := 0 }

end Sys2Proof.Machine
end

