-- ==== Sys2Proof/Machine/Flags.lean ====
section
/-! DEFINITION. STATUS: its error codes, its word as the host reads it, and the writes to its fields (10_state.md R24 to
R26, 60_exceptions.md R211). -/

namespace Sys2Proof.Machine

/-- R211: the code of an error in STATUS.ERR. -/
def ErrCode.code : ErrCode → BitVec 4
  | .ok => 0
  | .illegal => 1
  | .seedlen => 2
  | .degenerate => 3
  | .arg => 4
  | .notseeded => 5
  | .baserange => 6

/-- R24: STATUS as the host reads it. Bit 0 BUSY, 7:4 ERR, 8 OVR, 9 BADADDR, 10 ISEEDED, 11 XSEEDED, the others 0. -/
def Status.word (st : Status) : Word :=
  (0 : BitVec 52) ++ (BitVec.ofBool st.xseeded ++ (BitVec.ofBool st.iseeded ++ (BitVec.ofBool st.badaddr ++
    (BitVec.ofBool st.ovr ++ (st.err.code ++ ((0 : BitVec 3) ++ BitVec.ofBool st.busy))))))

/-- R26: a command completes with this code. -/
def Status.setErr (c : ErrCode) (st : Status) : Status := { st with err := c }

/-- R40: BUSY. -/
def Status.setBusy (b : Bool) (st : Status) : Status := { st with busy := b }

/-- R66: OVR is set. -/
def Status.setOvr (st : Status) : Status := { st with ovr := true }

/-- R65: BADADDR is set. -/
def Status.setBadaddr (st : Status) : Status := { st with badaddr := true }

/-- R33: ISEEDED is set. -/
def Status.setIseeded (st : Status) : Status := { st with iseeded := true }

/-- R35: XSEEDED is set. -/
def Status.setXseeded (st : Status) : Status := { st with xseeded := true }

/-- R25: a host write of `v` to STATUS clears OVR where v[8] = 1 and BADADDR where v[9] = 1, and does nothing else. -/
def Status.writeOneToClear (v : Word) (st : Status) : Status :=
  { st with ovr := st.ovr && !v.getLsbD 8, badaddr := st.badaddr && !v.getLsbD 9 }

end Sys2Proof.Machine
end

