-- ==== Sys2Proof/Machine/Operands.lean ====
section
/-! DEFINITION. Operand forms: the host-register map (20_memory.md R61, R63), the legal ranges of IMM16 (30_encoding.md
R87), and the integers held in limbs (00_scope.md R11). -/

namespace Sys2Proof.Machine

/-! ### The host-register map -/

/-- A host register (R61), by name; array elements by index. -/
inductive HReg where
  | info | cmd | status | res | arg0 | arg1 | ocfgv | obase
  | iaa | ibb | icc | icnt | xs0 | xs1
  | mm (i : BitVec 8)
  | rsl (i : BitVec 8)
  | seed (i : BitVec 8)
  | num (i : Nat)
  | big (i : Nat)
deriving DecidableEq, Repr

/-- R61, addresses 0x000 to 0x0FF. -/
def lowReg (i : Nat) : Option HReg :=
  match i with
  | 0x0 => some .info
  | 0x1 => some .cmd
  | 0x2 => some .status
  | 0x3 => some .res
  | 0x4 => some .arg0
  | 0x5 => some .arg1
  | 0x6 => some .ocfgv
  | 0x7 => some .obase
  | 0x8 => some .iaa
  | 0x9 => some .ibb
  | 0xA => some .icc
  | 0xB => some .icnt
  | 0xC => some .xs0
  | 0xD => some .xs1
  | _ => none

/-- R61: the register at an address; none where the map says unmapped. `limbs` is LIMBS. -/
def hregAt (limbs : Nat) (a : HAddr) : Option HReg :=
  let i := a.setWidth 8
  match a.toNat / 256 with
  | 0 => lowReg i.toNat
  | 1 => some (.mm i)
  | 2 => some (.rsl i)
  | 3 => some (.seed i)
  | 4 => if i.toNat < limbs then some (.num i.toNat) else none
  | 5 => if i.toNat < limbs then some (.big i.toNat) else none
  | _ => none

/-- MAPPED (R63). -/
def mapped (limbs : Nat) (a : HAddr) : Bool := (hregAt limbs a).isSome

/-- The host may write the register (R61, R63). -/
def HReg.writable : HReg → Bool
  | .cmd | .status | .arg0 | .arg1 | .seed _ | .num _ => true
  | .info | .res | .ocfgv | .obase | .iaa | .ibb | .icc | .icnt | .xs0 | .xs1 => false
  | .mm _ | .rsl _ | .big _ => false

/-- WRITABLE (R63). -/
def writable (limbs : Nat) (a : HAddr) : Bool := (hregAt limbs a).any HReg.writable

/-! ### IMM16 -/

/-- BIGW (R6). -/
def bigw (limbs : Nat) : Nat := 64 * limbs

/-- R154: 1 ≤ n ≤ BIGW. -/
def legalBitCount (limbs n : Nat) : Bool := 1 ≤ n && n ≤ bigw limbs

/-- R171: k is positive. -/
def legalTrialCount (k : Nat) : Bool := 1 ≤ k

/-! ### Integers in limbs -/

/-- BIGVAL (R11): limb 0 is least significant. -/
def bigval : List Word → Nat
  | [] => 0
  | w :: ws => w.toNat + 2 ^ 64 * bigval ws

/-- R11: the `limbs` words of an integer, `A[i] = v[64i+63 : 64i]`. -/
def toLimbs : Nat → Nat → List Word
  | 0, _ => []
  | limbs + 1, v => BitVec.ofNat 64 v :: toLimbs limbs (v / 2 ^ 64)

end Sys2Proof.Machine
end

