-- ==== Sys2Proof/Machine/Ops.lean ====
section
/-! DEFINITION. The shared operations over the state: element access, field updates, draws, the register views, the
host's store to a register, ending a command, and raising a command error. -/

namespace Sys2Proof.Machine

/-! ### Register arrays -/

/-- Element `i` of a register array. -/
def Pool.get8 (p : Pool) (i : BitVec 8) : Word := p[i.toNat]

/-- The register array with element `i` set. -/
def Pool.set8 (p : Pool) (i : BitVec 8) (v : Word) : Pool := p.set i.toNat v

/-! ### Field updates -/

def State.setStatus (s : State) (st : Status) : State := { s with status := st }
def State.setPend (s : State) (w : Word) : State := { s with pend := w }
def State.setArg0 (s : State) (w : Word) : State := { s with arg0 := w }
def State.setArg1 (s : State) (w : Word) : State := { s with arg1 := w }
def State.setRes (s : State) (w : Word) : State := { s with res := w }
def State.setSeed (s : State) (p : Pool) : State := { s with seed := p }
def State.setNum (s : State) (ws : List Word) : State := { s with num := ws }
def State.setBig (s : State) (ws : List Word) : State := { s with big := ws }
def State.setIsaac (s : State) (u : Isaac) : State := { s with isaac := u }
def State.setXs (s : State) (x : Xorshift) : State := { s with xs := x }
def State.setOracle (s : State) (o : Oracle) : State := { s with oracle := o }
def State.setEnv (s : State) (e : Env) : State := { s with env := e }

/-! ### Draws (R8, R12) -/

/-- DrawEntropy, `n` calls in a row: the word of call `i` of them is `Config.entropy (d + i)`. -/
def State.tookEntropy (s : State) (n : Nat) : State :=
  s.setEnv { s.env with entropyDraws := s.env.entropyDraws + n }

/-- DrawBase(lo, hi), call number `d`: some integer in [lo, hi] (R8). -/
def drawBase (d lo hi : Nat) : Nat := lo + Config.base d % (hi - lo + 1)

/-- The base source has been asked until call number `d` is the next. -/
def State.setBaseDraws (s : State) (d : Nat) : State := s.setEnv { s.env with baseDraws := d }

/-- A fresh DrawAny64. -/
def State.anyWord (s : State) : Word := Config.any s.env.anyDraws

/-- One DrawAny64 was made. -/
def State.tookAny (s : State) : State := s.setEnv { s.env with anyDraws := s.env.anyDraws + 1 }

/-! ### Commands end -/

/-- A command completes without error: ERR <- OK (R26). -/
def succeed (s : State) : State := s.setStatus (s.status.setErr .ok)

/-- `raise CmdError(c)` (R12, R214), the block's one exception: of the state the command started in, only ERR changes.
It is given that state, so everything else keeps its value, and no draw is consumed. There is no return from it
(R215): the engine waits for the next command. -/
def raise (c : ErrCode) (s : State) : State := s.setStatus (s.status.setErr c)

/-- The engine step's last line (R200): BUSY <- 0, also after a command error. The block then holds no copy of the command
(R76). What the latch holds instead no rule gives: a free value of its own, as after reset (R241, U2). DESIGN CHOICE
(log 17). -/
def release (s : State) : State := ((s.setStatus (s.status.setBusy false)).setPend s.anyWord).tookAny

/-! ### Host views (R61) -/

/-- OCFGV (R28): bits 15:0 K, bit 16 FIXB, the others 0. -/
def ocfgvWord (o : Oracle) : Word := (0 : BitVec 47) ++ (BitVec.ofBool o.fixb ++ o.k)

/-- INFO (R27): bits 15:0 LIMBS, the others 0. -/
def infoWord (limbs : Nat) : Word := (BitVec.ofNat 16 limbs).setWidth 64

/-- The exact value of a register (R68's last line and the lines before it); CMD reads 0 (R61, R65). -/
def State.view (s : State) : HReg → Word
  | .info => infoWord s.limbs
  | .cmd => 0
  | .status => s.status.word
  | .res => s.res
  | .arg0 => s.arg0
  | .arg1 => s.arg1
  | .ocfgv => ocfgvWord s.oracle
  | .obase => s.oracle.obase
  | .iaa => s.isaac.iaa
  | .ibb => s.isaac.ibb
  | .icc => s.isaac.icc
  | .icnt => BitVec.ofNat 64 s.isaac.icnt.val
  | .xs0 => s.xs.s0
  | .xs1 => s.xs.s1
  | .mm i => s.isaac.mm.get8 i
  | .rsl i => s.isaac.rsl.get8 i
  | .seed i => s.seed.get8 i
  | .num i => s.num.getD i 0
  | .big i => s.big.getD i 0

/-- A host read of this register returns the exact value even while BUSY = 1: STATUS and INFO (R67), and CMD, which
R65 and R68 have read 0 at all times (DEDUCED, log 7). -/
def HReg.exactWhileBusy : HReg → Bool
  | .status | .info | .cmd => true
  | .res | .arg0 | .arg1 | .ocfgv | .obase | .iaa | .ibb | .icc | .icnt | .xs0 | .xs1 => false
  | .mm _ | .rsl _ | .seed _ | .num _ | .big _ => false

/-! ### Host stores (R64) -/

/-- R40: the command latch takes `w`. -/
def latch (w : Word) (s : State) : State := (s.setPend w).setStatus (s.status.setBusy true)

/-- R64's last two lines: the accepted write of `v` to a writable register other than STATUS. The read-only registers
keep their value (R65); `execHwr` turns a write to one away before. -/
def store (r : HReg) (v : Word) (s : State) : State :=
  match r with
  | .cmd => latch v s
  | .arg0 => s.setArg0 v
  | .arg1 => s.setArg1 v
  | .seed i => s.setSeed (s.seed.set8 i v)
  | .num i => s.setNum (s.num.set i v)
  | .info | .status | .res | .ocfgv | .obase | .iaa | .ibb | .icc | .icnt | .xs0 | .xs1 => s
  | .mm _ | .rsl _ | .big _ => s

/-- R65: BADADDR <- 1. -/
def flagBadaddr (s : State) : State := s.setStatus s.status.setBadaddr

/-- R66: OVR <- 1. -/
def flagOvr (s : State) : State := s.setStatus s.status.setOvr

/-- R68: the read returns `v` to the host. -/
def returnWord (v : Word) (s : State) : State := s.setEnv { s.env with rdata := v }

/-! ### Reset (R240) -/

/-- The reset event: the state of R241, the constant INFO kept (R225). Accesses the host has not performed yet, the word
it last read, and the sources' call numbers are no state of the block and stay (log 16). -/
def applyReset (s : State) : State := State.afterReset s.limbs s.env

end Sys2Proof.Machine
end

