-- ==== Sys2Proof/Machine/Control.lean ====
section
/-! DEFINITION. The control group of the opcode map: NOP (44_control.md R203). -/

namespace Sys2Proof.Machine

/-- NOP (R203). -/
def execNop (s : State) : Host.Outcome State Fault Refusal := .next (succeed s)

end Sys2Proof.Machine
end

