-- ==== Sys2Proof/Machine/HostAccess.lean ====
section
/-! DEFINITION. The host's two access operations, HWR and HRD (20_memory.md R64 to R68). -/

namespace Sys2Proof.Machine

/-- HWR a, v (R64): STATUS clears its sticky bits and is always accepted (R25); an unmapped or read-only address sets
BADADDR (R65); a write while BUSY = 1 is dropped and sets OVR (R66); CMD latches a command; any other register takes
the value. -/
def execHwr (a : HAddr) (v : Word) (s : State) : Host.Outcome State Fault Refusal :=
  .next <|
    match hregAt s.limbs a with
    | none => flagBadaddr s
    | some r =>
      if r = .status then s.setStatus (s.status.writeOneToClear v)
      else if r.writable = false then flagBadaddr s
      else if s.status.busy then flagOvr s
      else store r v s

/-- HRD a (R68): an unmapped address reads 0 and sets BADADDR (R65); while BUSY = 1 every register but those of
`exactWhileBusy` reads an unspecified value (R67); otherwise the register's value. -/
def execHrd (a : HAddr) (s : State) : Host.Outcome State Fault Refusal :=
  .next <|
    match hregAt s.limbs a with
    | none => returnWord 0 (flagBadaddr s)
    | some r =>
      if s.status.busy && !r.exactWhileBusy then returnWord s.anyWord s.tookAny
      else returnWord (s.view r) s

end Sys2Proof.Machine
end

