-- ==== Sys2Proof/Machine/OracleUnit.lean ====
section
/-! DEFINITION. The primality oracle (43_primality.md): MODEXP, DECOMPOSE, GETBASE, FERMAT_TEST, MR_TEST, and the commands
OCFG, FERMAT and MILLERRABIN. Numbers are exact (R11). -/

namespace Sys2Proof.Machine

/-! ### Arithmetic -/

/-- Square-and-multiply: `acc * b^e mod n`; `fuel` bounds the bits of `e`. -/
def modexpLoop (n : Nat) : Nat → Nat → Nat → Nat → Nat
  | 0, _, _, acc => acc
  | fuel + 1, b, e, acc =>
    if e = 0 then acc
    else modexpLoop n fuel (b * b % n) (e / 2) (if e % 2 = 1 then acc * b % n else acc)

/-- MODEXP(a, e, n) (R172): `a ^ e % n`. The method is not observable; square-and-multiply lets it be evaluated. -/
def modexp (a e n : Nat) : Nat := modexpLoop n (e.log2 + 1) (a % n) e (1 % n)

/-- The number of trailing zero bits of `m`; `fuel` bounds them. -/
def trailingZeros : Nat → Nat → Nat
  | 0, _ => 0
  | fuel + 1, m => if m % 2 = 0 then trailingZeros fuel (m / 2) + 1 else 0

/-- DECOMPOSE(m) (R174): `(r, s)` with `m = 2^r * s`, `s` odd. -/
def decompose (m : Nat) : Nat × Nat :=
  let r := trailingZeros m.log2 m
  (r, m >>> r)

/-! ### One trial -/

/-- A Fermat trial with base `a` (R173): it passes when `a^(n-1) mod n = 1`. -/
def fermatTrial (n a : Nat) : Bool := modexp a (n - 1) n == 1

/-- R175's inner loop: does one of up to `j` squarings of `x` reach n - 1? -/
def reachesMinusOne (n : Nat) : Nat → Nat → Bool
  | 0, _ => false
  | j + 1, x => x * x % n == n - 1 || reachesMinusOne n j (x * x % n)

/-- A Miller–Rabin trial with base `a` (R175). -/
def mrTrial (n a : Nat) : Bool :=
  let rs := decompose (n - 1)
  let x := modexp a rs.2 n
  x == 1 || x == n - 1 || reachesMinusOne n (rs.1 - 1) x

/-! ### Tests -/

/-- GETBASE(n) (R176): the base of the trial whose draw would be call number `d`, and the next call number; or BASERANGE. -/
def getBase (o : Oracle) (n d : Nat) : Except ErrCode (Nat × Nat) :=
  if o.fixb = false then .ok (drawBase d 2 (n - 2), d + 1)
  else if o.obase.toNat < 2 ∨ n - 2 < o.obase.toNat then .error .baserange
  else .ok (o.obase.toNat, d)

/-- `t` trials (R173, R175): stop at the first that fails. The answer is the verdict and the next draw's number. -/
def runTrials (o : Oracle) (n : Nat) (trial : Nat → Bool) : Nat → Nat → Except ErrCode (Bool × Nat)
  | 0, d => .ok (true, d)
  | t + 1, d =>
    match getBase o n d with
    | .error c => .error c
    | .ok (a, d') => if trial a then runTrials o n trial t d' else .ok (false, d')

/-- The guards both tests share (R173, R175 with 90_conflicts.md C2), then K trials. -/
def primalityTest (o : Oracle) (trial : Nat → Nat → Bool) (n d : Nat) : Except ErrCode (Bool × Nat) :=
  if n ≤ 1 then .ok (false, d)
  else if n = 2 ∨ n = 3 then .ok (true, d)
  else if n % 2 = 0 then .ok (false, d)
  else runTrials o n (trial n) o.k.toNat d

/-- FERMAT_TEST(n) (R173). -/
def fermatTest (o : Oracle) (n d : Nat) : Except ErrCode (Bool × Nat) := primalityTest o fermatTrial n d

/-- MR_TEST(n) (R175). -/
def mrTest (o : Oracle) (n d : Nat) : Except ErrCode (Bool × Nat) := primalityTest o mrTrial n d

/-- R177, R178: RES is 1 for "prime", 0 for "not prime"; an error leaves RES unchanged. -/
def finishTest (r : Except ErrCode (Bool × Nat)) (s : State) : State :=
  match r with
  | .error c => raise c s
  | .ok (v, d) => succeed ((s.setRes ((BitVec.ofBool v).setWidth 64)).setBaseDraws d)

/-! ### Commands -/

/-- OCFG k, F (R171). -/
def execOcfg (k : Nat) (f : Bool) (s : State) : Host.Outcome State Fault Refusal :=
  .next <|
    if legalTrialCount k = false then raise .arg s
    else succeed (s.setOracle
      { k := BitVec.ofNat 16 k, fixb := f, obase := if f then s.arg0 else s.oracle.obase })

/-- FERMAT (R177). -/
def execFermat (s : State) : Host.Outcome State Fault Refusal :=
  .next (finishTest (fermatTest s.oracle (bigval s.num) s.env.baseDraws) s)

/-- MILLERRABIN (R178). -/
def execMillerrabin (s : State) : Host.Outcome State Fault Refusal :=
  .next (finishTest (mrTest s.oracle (bigval s.num) s.env.baseDraws) s)

end Sys2Proof.Machine
end

