-- ==== Sys2Proof/Machine/IsaacUnit.lean ====
section
/-! DEFINITION. The ISAAC64 unit (40_isaac64.md): MIX, RANDINIT, REGEN, ISAAC_NEXT, and the commands ISEED and INEXT. The
source's algorithm is normative where it differs from the published one (R104, 93 I1). -/

namespace Sys2Proof.Machine

/-! ### MIX (R101) -/

/-- The eight scratch accumulators of RANDINIT (R103); they live inside one ISEED only (R41). -/
structure Accum where
  a : Word
  b : Word
  c : Word
  d : Word
  e : Word
  f : Word
  g : Word
  h : Word
deriving DecidableEq, Repr

/-- MIX (R101), its 24 word operations in order. -/
def mix (x : Accum) : Accum :=
  let a := x.a - x.e;      let f := x.f ^^^ (x.h >>> 9); let h := x.h + a
  let b := x.b - f;        let g := x.g ^^^ (a <<< 9);   let a := a + b
  let c := x.c - g;        let h := h ^^^ (b >>> 23);    let b := b + c
  let d := x.d - h;        let a := a ^^^ (c <<< 15);    let c := c + d
  let e := x.e - a;        let b := b ^^^ (d >>> 14);    let d := d + e
  let f := f - b;          let c := c ^^^ (e <<< 20);    let e := e + f
  let g := g - c;          let d := d ^^^ (f >>> 17);    let f := f + g
  let h := h - d;          let e := e ^^^ (g <<< 14);    let g := g + h
  { a := a, b := b, c := c, d := d, e := e, f := f, g := g, h := h }

/-- GOLDEN (R102). -/
def golden : Word := 0x9e3779b97f4a7c13

/-- R103, step 1. -/
def goldenAccum : Accum := ⟨golden, golden, golden, golden, golden, golden, golden, golden⟩

/-! ### RANDINIT (R103) -/

/-- Element `8 * g + k` of a pool. -/
def slot (g k : Nat) : BitVec 8 := BitVec.ofNat 8 (8 * g + k)

/-- Add the eight words of group `g` into the accumulators (R103, steps 3 and 4). -/
def Accum.addGroup (x : Accum) (src : Pool) (g : Nat) : Accum :=
  { a := x.a + src.get8 (slot g 0), b := x.b + src.get8 (slot g 1)
    c := x.c + src.get8 (slot g 2), d := x.d + src.get8 (slot g 3)
    e := x.e + src.get8 (slot g 4), f := x.f + src.get8 (slot g 5)
    g := x.g + src.get8 (slot g 6), h := x.h + src.get8 (slot g 7) }

/-- Store the eight accumulators at group `g` of MM (R103, steps 3 and 4). -/
def storeGroup (mm : Pool) (g : Nat) (x : Accum) : Pool :=
  ((((((((mm.set8 (slot g 0) x.a).set8 (slot g 1) x.b).set8 (slot g 2) x.c).set8 (slot g 3) x.d).set8
    (slot g 4) x.e).set8 (slot g 5) x.f).set8 (slot g 6) x.g).set8 (slot g 7) x.h)

/-- One group of a pass: add from `src`, MIX once, store to MM. -/
def absorb (src : Pool) (st : Accum × Pool) (g : Nat) : Accum × Pool :=
  let x := mix (st.1.addGroup src g)
  (x, storeGroup st.2 g x)

/-- R103, step 3: the 32 groups of the seed. -/
def seedPass (seed : Pool) (st : Accum × Pool) : Accum × Pool :=
  (List.range 32).foldl (fun st g => absorb seed st g) st

/-- R103, step 4: the 32 groups of MM itself; a group is read before it is overwritten. -/
def secondPass (st : Accum × Pool) : Accum × Pool :=
  (List.range 32).foldl (fun st g => absorb st.2 st g) st

/-! ### REGEN (R104 to R106) -/

/-- What REGEN works on: MM, RSL and the running `a` and `b` (R105). -/
structure Sweep where
  mm : Pool
  rsl : Pool
  a : Word
  b : Word
deriving DecidableEq, Repr

/-- `ind(v)` (R104): the low 8 bits of `v` select an element of MM. -/
def ind (mm : Pool) (v : Word) : Word := mm.get8 (v.setWidth 8)

/-- The four transforms of `a`, by m mod 4 (R105). -/
def mixedA (m : BitVec 8) (a : Word) : Word :=
  match m.toNat % 4 with
  | 0 => ~~~(a ^^^ (a <<< 21))
  | 1 => a ^^^ (a >>> 5)
  | 2 => a ^^^ (a <<< 12)
  | _ => a ^^^ (a >>> 33)

/-- STEP(m, m2, ma) with m2 = (m + 128) mod 256 and ma the transform of step m (R105, R106). -/
def sweepStep (r : Sweep) (m : BitVec 8) : Sweep :=
  let x := r.mm.get8 m
  let a := mixedA m r.a + r.mm.get8 (m + 128)
  let y := ind r.mm x + a + r.b
  let mm := r.mm.set8 m y
  let b := ind mm (y >>> 8) + x
  { mm := mm, rsl := r.rsl.set8 m b, a := a, b := b }

/-- The first `n` steps of REGEN's loop `for m in 0..255`. -/
def sweep (n : Nat) (r : Sweep) : Sweep :=
  (List.range n).foldl (fun r m => sweepStep r (BitVec.ofNat 8 m)) r

/-- REGEN (R105). -/
def regen (u : Isaac) : Isaac :=
  let icc := u.icc + 1
  let r := sweep 256 { mm := u.mm, rsl := u.rsl, a := u.iaa, b := u.ibb + icc }
  { mm := r.mm, rsl := r.rsl, iaa := r.a, ibb := r.b, icc := icc, icnt := u.icnt }

/-- RANDINIT(S) (R103) on a unit that holds `u`. -/
def randinit (u : Isaac) (seed : Pool) : Isaac :=
  let x := mix (mix (mix (mix goldenAccum)))
  let mm := (secondPass (seedPass seed (x, u.mm))).2
  { regen { mm := mm, rsl := u.rsl, iaa := 0, ibb := 0, icc := 0, icnt := u.icnt } with icnt := 256 }

/-! ### ISAAC_NEXT (R107) -/

/-- R107's first lines: a call that finds the cursor at 0 regenerates and sets it to 256. -/
def refill (u : Isaac) : Isaac :=
  if u.icnt = 0 then { regen u with icnt := 256 } else u

/-- ICNT - 1. -/
def pred257 (c : Fin 257) : Fin 257 := ⟨c.val - 1, by omega⟩

/-- ISAAC_NEXT (R107): the next word, and the unit after the call. -/
def isaacNext (u : Isaac) : Word × Isaac :=
  let u := refill u
  let c := pred257 u.icnt
  (u.rsl.get8 (BitVec.ofNat 8 c.val), { u with icnt := c })

/-! ### Commands -/

/-- A unit was built from a seed: it holds the new stream and ISEEDED <- 1 (R110). -/
def installStream (seed : Pool) (s : State) : State :=
  succeed ((s.setIsaac (randinit s.isaac seed)).setStatus s.status.setIseeded)

/-- ISEED L (R110): L = 0 takes 256 entropy words, L = 256 the SEED buffer, any other L raises SEEDLEN. -/
def execIseed (len : Nat) (s : State) : Host.Outcome State Fault Refusal :=
  .next <|
    if len = 0 then
      (installStream (Pool.ofFn fun i => Config.entropy (s.env.entropyDraws + i)) s).tookEntropy 256
    else if len = 256 then installStream s.seed s
    else raise .seedlen s

/-- INEXT (R111). -/
def execInext (s : State) : Host.Outcome State Fault Refusal :=
  .next <|
    if s.status.iseeded then
      succeed ((s.setRes (isaacNext s.isaac).1).setIsaac (isaacNext s.isaac).2)
    else raise .notseeded s

end Sys2Proof.Machine
end

