-- ==== Sys2Proof/Machine/XorshiftUnit.lean ====
section
/-! DEFINITION. The Xorshift128+ unit (41_xorshift128plus.md): XS_NEXT and the commands XSEED and XNEXT. -/

namespace Sys2Proof.Machine

/-- L (R136): the first two lines of XS_NEXT's XOR chain; the shift left is a word shift (R132). -/
def xsL (s : Word) : Word :=
  let u := s ^^^ (s <<< 23)
  u ^^^ (u >>> 17)

/-- XS_NEXT (R131): the word s0_new, and the unit after the call. -/
def xsNext (x : Xorshift) : Word × Xorshift :=
  let t := xsL x.s0 ^^^ x.s1
  (t, { s0 := x.s1, s1 := t + x.s1 })

/-- XSEED (R134). -/
def execXseed (s : State) : Host.Outcome State Fault Refusal :=
  .next <|
    if s.arg0 = 0 ∧ s.arg1 = 0 then raise .degenerate s
    else succeed ((s.setXs { s0 := s.arg0, s1 := s.arg1 }).setStatus s.status.setXseeded)

/-- XNEXT (R135). -/
def execXnext (s : State) : Host.Outcome State Fault Refusal :=
  .next <|
    if s.status.xseeded then succeed ((s.setRes (xsNext s.xs).1).setXs (xsNext s.xs).2)
    else raise .notseeded s

end Sys2Proof.Machine
end

