-- ==== Sys2Proof/Machine/Packer.lean ====
section
/-! DEFINITION. The bit-packer (42_bitpacker.md): PACK_HIGH, PACK_LOW and the commands IRANDBITS and XRANDBITS. The two
take opposite ends of a word (R151, R152; 93 U13 flags it, and both are normative). -/

namespace Sys2Proof.Machine

/-- The packer's loop (R150 to R152), over a generator `next` and a rule `chunk c w` for the `c` bits taken of a word.
`fuel` bounds the iterations; `rem` of them is always enough. -/
def packLoop {σ : Type} (next : σ → Word × σ) (chunk : Nat → Word → Nat) : Nat → Nat → Nat → σ → Nat × σ
  | 0, _, acc, u => (acc, u)
  | fuel + 1, rem, acc, u =>
    if rem = 0 then (acc, u)
    else
      let c := min 64 rem
      packLoop next chunk fuel (rem - c) ((acc <<< c) ||| chunk c (next u).1) (next u).2

/-- The high-order `c` bits of a word, w[63 : 64-c] (R151). -/
def chunkHigh (c : Nat) (w : Word) : Nat := (w >>> (64 - c)).toNat

/-- The low-order `c` bits of a word, w[c-1 : 0] (R152). -/
def chunkLow (c : Nat) (w : Word) : Nat := w.toNat % 2 ^ c

/-- PACK_HIGH(n) (R151). -/
def packHigh (n : Nat) (u : Isaac) : Nat × Isaac := packLoop isaacNext chunkHigh n n 0 u

/-- PACK_LOW(n) (R152). -/
def packLow (n : Nat) (x : Xorshift) : Nat × Xorshift := packLoop xsNext chunkLow n n 0 x

/-- R153: the result goes to all LIMBS limbs of BIG. -/
def writeBig (v : Nat) (s : State) : State := s.setBig (toLimbs s.limbs v)

/-- IRANDBITS n (R155); ARG comes before NOTSEEDED (R212). -/
def execIrandbits (n : Nat) (s : State) : Host.Outcome State Fault Refusal :=
  .next <|
    if legalBitCount s.limbs n = false then raise .arg s
    else if s.status.iseeded = false then raise .notseeded s
    else succeed ((writeBig (packHigh n s.isaac).1 s).setIsaac (packHigh n s.isaac).2)

/-- XRANDBITS n (R156); ARG comes before NOTSEEDED (R212). -/
def execXrandbits (n : Nat) (s : State) : Host.Outcome State Fault Refusal :=
  .next <|
    if legalBitCount s.limbs n = false then raise .arg s
    else if s.status.xseeded = false then raise .notseeded s
    else succeed ((writeBig (packLow n s.xs).1 s).setXs (packLow n s.xs).2)

end Sys2Proof.Machine
end

