-- ==== Sys2Proof/Machine/Dispatch.lean ====
section
/-! DEFINITION. The meaning of each instruction, one arm per constructor. -/

namespace Sys2Proof.Machine

def exec (i : Instr) (s : State) : Host.Outcome State Fault Refusal :=
  match i with
  | .nop => Sys2Proof.Machine.execNop s
  | .iseed len => Sys2Proof.Machine.execIseed len s
  | .inext => Sys2Proof.Machine.execInext s
  | .irandbits n => Sys2Proof.Machine.execIrandbits n s
  | .xseed => Sys2Proof.Machine.execXseed s
  | .xnext => Sys2Proof.Machine.execXnext s
  | .xrandbits n => Sys2Proof.Machine.execXrandbits n s
  | .ocfg k f => Sys2Proof.Machine.execOcfg k f s
  | .fermat => Sys2Proof.Machine.execFermat s
  | .millerrabin => Sys2Proof.Machine.execMillerrabin s
  -- host accesses
  | .hwr a v => Sys2Proof.Machine.execHwr a v s
  | .hrd a => Sys2Proof.Machine.execHrd a s

end Sys2Proof.Machine
end

