-- ==== Sys2Proof/Machine/Engine.lean ====
section
/-! DEFINITION. The agents' steps: the engine's (44_control.md R200) and the host's (20_memory.md R73, 30_encoding.md
R88). -/

namespace Sys2Proof.Machine

/-- What an outcome's state becomes. -/
def mapNext (f : State → State) : Host.Outcome State Fault Refusal → Host.Outcome State Fault Refusal
  | .next s => .next (f s)
  | .fault r => .fault r
  | .refused r => .refused r

/-- ENGINE_STEP (R200) of an engine that is enabled (BUSY = 1): decode PEND, execute, BUSY <- 0; a word that matches no
row raises ILLEGAL (R86). -/
def engineStep (s : State) : Host.Outcome State Fault Refusal :=
  match decodeCommand s.pend with
  | .ok i => mapNext release (exec i s)
  | .error _ => .next (release (raise .illegal s))

/-- The engine's turn: a step where it is enabled, nothing where it waits (R200). -/
def engineTurn (s : State) : Host.Outcome State Fault Refusal :=
  if s.status.busy then engineStep s else .next s

/-- The host performs the access of a record; a malformed read record is refused (R88, log 11). -/
def hostAccess (r : Record) (s : State) : Host.Outcome State Fault Refusal :=
  match decodeRecord r with
  | .ok i => exec i s
  | .error _ => .refused .malformedRecord

/-- The inputs still to come. -/
def State.setInputs (s : State) (is : List Input) : State := s.setEnv { s.env with inputs := is }

/-- The state in which the very next step runs the instruction of this code: a command word is latched and the engine
gets its turn; a record is the next host access (log 2). -/
def placeCode (s : State) : Code → State
  | .command w => (latch w s).setInputs (.engineTurn :: s.env.inputs)
  | .record r => s.setInputs (.access r :: s.env.inputs)

end Sys2Proof.Machine
end

