-- ==== Sys2Proof/Machine/Step.lean ====
section
/-! DEFINITION. One step of the machine: the next agent acts (20_memory.md R73). -/

namespace Sys2Proof.Machine

/-- One step. The next input happens: a host access, an engine turn, or reset. With no input left the engine takes its
turn (R201: while BUSY = 1 its step eventually happens), and an idle block waits (log 1, log 14). -/
def step (s : State) : Host.Outcome State Fault Refusal :=
  match s.env.inputs with
  | [] => engineTurn s
  | .engineTurn :: rest => engineTurn (s.setInputs rest)
  | .access r :: rest => hostAccess r (s.setInputs rest)
  | .reset :: rest => .next (applyReset (s.setInputs rest))

/-- `s` with the instruction of the opcode-table word `w` placed so that the very next step runs it (log 2, log 12); a `w`
that is too long for its carrier (`tableCode` gives none) places nothing. -/
def State.withFetchWord (s : State) (nbits w : Nat) : State :=
  match tableCode nbits w with
  | some c => placeCode s c
  | none => s

end Sys2Proof.Machine
end

