-- ==== Sys2Proof/Safety.lean ====
section
/-! DEFINITION. The terms claims are stated in: when a state is well formed, the invariant every step keeps, which inputs
are records the block accepts, and the mathematical notions of the two primality tests. -/

namespace Sys2Proof.Machine

/-! ### Invariant -/

/-- The register arrays have the sizes the spec gives them: 1 to 256 limbs (R6), NUM and BIG of LIMBS words (R37, R38).
It is this model's counterpart of a canonical form of memory (log 9). -/
def State.wf (s : State) : Bool :=
  1 ≤ s.limbs && s.limbs ≤ 256 && s.num.length == s.limbs && s.big.length == s.limbs

/-- What holds of the block between two steps of any agent. -/
structure BlockInv (s : State) : Prop where
  /-- R6, R37, R38 -/
  sizes : s.wf = true
  /-- R28: K has a legal value, 1 to 65535 -/
  trials : s.oracle.k ≠ 0
  /-- R35, R136: a seeded Xorshift128+ unit is never at (0, 0) -/
  nondegenerate : s.status.xseeded = true → ¬(s.xs.s0 = 0 ∧ s.xs.s1 = 0)
  /-- R109: while the ISAAC64 unit is seeded, IBB is the last word of the current block -/
  lastWord : s.status.iseeded = true → s.isaac.ibb = s.isaac.rsl.get8 255

/-! ### The end of a command -/

/-- What R200's last line makes of the state `t` a command left, as a plain update: BUSY is 0 and PEND holds no copy of the
command (R76) but the free value `Config.any` of the next number (log 17). -/
def State.completed (t : State) : State :=
  { t with status := { t.status with busy := false }
           pend := Config.any t.env.anyDraws
           env := { t.env with anyDraws := t.env.anyDraws + 1 } }

/-! ### Inputs -/

/-- A record the block accepts (R88): not a malformed read. -/
def Input.wellFormed : Input → Bool
  | .access r => txnWrite r || txnData r == 0
  | .engineTurn => true
  | .reset => true

/-- Every input still to come is well formed. A run from such a state never stops. -/
def State.inputsWellFormed (s : State) : Bool := s.env.inputs.all Input.wellFormed

end Sys2Proof.Machine

namespace Sys2Proof

/-- The ten commands of the engine; the other two instructions are the host's accesses. -/
def Instr.isCommand : Instr → Bool
  | .nop | .iseed _ | .inext | .irandbits _ | .xseed | .xnext | .xrandbits _ | .ocfg _ _ | .fermat | .millerrabin => true
  | .hwr _ _ | .hrd _ => false

/-- R86's description of the illegal words: an unassigned opcode, or a nonzero field where the row needs 0. -/
def reservedWord (w : Word) : Prop :=
  opField w ∉ ([0x00, 0x01, 0x02, 0x03, 0x08, 0x09, 0x0A, 0x10, 0x11, 0x12] : List (BitVec 8))
    ∨ rsv1Field w ≠ 0 ∨ rsv0Field w ≠ 0
    ∨ (flagField w = true ∧ opField w ≠ 0x10)
    ∨ (imm16Field w ≠ 0 ∧ opField w ∉ ([0x01, 0x03, 0x0A, 0x10] : List (BitVec 8)))

/-- R173: the Fermat trial of `n` with base `a` passes. -/
def FermatPasses (n a : Nat) : Prop := a ^ (n - 1) % n = 1

/-- R175: the Miller–Rabin trial of `n` with base `a` passes: with n - 1 = 2^r s, s odd, a^s is 1 or n - 1 modulo n, or
one of its first r - 1 squarings is n - 1. -/
def MillerRabinPasses (n a : Nat) : Prop :=
  ∃ r s, n - 1 = 2 ^ r * s ∧ s % 2 = 1 ∧ (a ^ s % n = 1 ∨ ∃ i < r, a ^ (2 ^ i * s) % n = n - 1)

namespace Machine

/-- The base of trial `t` (counted from 0) of a primality command on `n` in state `s` (R176): OBASE, or the base
source's answer to the next call but `t`. -/
def trialBase (s : State) (n t : Nat) : Nat :=
  if s.oracle.fixb then s.oracle.obase.toNat else drawBase (s.env.baseDraws + t) 2 (n - 2)

/-- R176: FIXB = 1 and OBASE outside [2, n-2]. -/
def baseOutOfRange (s : State) (n : Nat) : Prop :=
  s.oracle.fixb = true ∧ (s.oracle.obase.toNat < 2 ∨ n - 2 < s.oracle.obase.toNat)

/-- The ISAAC64 unit after `j` calls of ISAAC_NEXT. -/
def afterWords (j : Nat) (u : Isaac) : Isaac := (fun u => (isaacNext u).2)^[j] u

/-- The Xorshift128+ unit after `j` calls of XS_NEXT. -/
def afterXsWords (j : Nat) (x : Xorshift) : Xorshift := (fun x => (xsNext x).2)^[j] x

end Machine

end Sys2Proof
end

