-- ==== Sys2Proof/Certificates/Slice0/Obligations.lean ====
section
/-! DEFINITION. The statements about the model, from the numbered rules of spec/. Results are written with plain record
updates, not with the model's own update functions. A statement that a log entry enters says so. Where a
statement gives a whole state after an engine step it says so with `State.completed`: PEND then holds no copy of the command
(R76), and that it holds a free value instead is the model's choice (log 17). -/

open Sys2Proof Sys2Proof.Machine

/-! ### Encoding (30_encoding.md) -/

/-- Words written out from the opcode map and the examples (R84, R88, R89; 95_test_vectors.md V20, P1) decode to their
instructions, and reserved ones to none. -/
def Obligations.WrittenWordsDecode : Prop :=
  decode (.command 0x0000000000000000) = .ok .nop
    ∧ decode (.command 0x0000000001000001) = .ok (.iseed 256)
    ∧ decode (.command 0x0000000000000002) = .ok .inext
    ∧ decode (.command 0x0000000000640003) = .ok (.irandbits 100)
    ∧ decode (.command 0x0000000000000008) = .ok .xseed
    ∧ decode (.command 0x0000000000000009) = .ok .xnext
    ∧ decode (.command 0x000000000010000A) = .ok (.xrandbits 16)
    ∧ decode (.command 0x0000000000050010) = .ok (.ocfg 5 false)
    ∧ decode (.command 0x0000000000010110) = .ok (.ocfg 1 true)
    ∧ decode (.command 0x0000000000000011) = .ok .fermat
    ∧ decode (.command 0x0000000000000012) = .ok .millerrabin
    ∧ decode (.command 0x0000000000000102) = .error .illegalCommand
    ∧ decode (.command 0x8000000000000001) = .error .illegalCommand
    ∧ decode (.command 0x0000000000000210) = .error .illegalCommand
    ∧ decode (.record 0x8040000000000000001) = .ok (.hwr 0x004 1)
    ∧ decode (.record 0x0020000000000000000) = .ok (.hrd 0x002)
    ∧ decode (.record 0x0020000000000000001) = .error .malformedRecord

/-- Every well-formed instruction is what its code decodes to. -/
def Obligations.DecodeOfEncode : Prop :=
  ∀ i : Instr, i.wellFormed = true → decode (encode i) = .ok i

/-- Every code that decodes is the code of the instruction it decodes to, which is well formed: no bit of a word is
ignored and no instruction has two codes. -/
def Obligations.EncodeOfDecode : Prop :=
  ∀ (c : Code) (i : Instr), decode c = .ok i → encode i = c ∧ i.wellFormed = true

/-- R86: a selected row decides the decoding (R84: the rows exclude each other), the illegal words are exactly the
reserved ones, and executing one raises ILLEGAL and changes no other state; the engine step then clears BUSY (R200) and
PEND gives up the word (R76). That this is the machine's very next step when no input is left is the model's choice
(log 14), and so is the free value PEND then holds (log 17). -/
def Obligations.IllegalWordsAreTheReservedOnes : Prop :=
  (∀ (w : Word) (r : Row), r ∈ opcodeRows → w &&& r.mask = r.pattern → decodeCommand w = .ok (r.operands w))
    ∧ (∀ w : Word, decodeCommand w = .error .illegalCommand ↔ reservedWord w)
    ∧ (∀ s : State, s.env.inputs = [] → s.status.busy = true → reservedWord s.pend →
        step s = .next { s with status := { s.status with err := .illegal } }.completed)

/-- R88: bit 75 of a record is W, bits 74:64 are A, bits 63:0 are D; W = 1 is HWR(A, D), W = 0 with D = 0 is HRD(A), and a
read record with D ≠ 0 is malformed. R88 has a trace reader refuse it; that the machine's step answers a refusal of that
name is the model's reading (log 11). -/
def Obligations.RecordFormat : Prop :=
  ∀ r : Record,
    (r.getLsbD 75 = true → decodeRecord r = .ok (.hwr (r.extractLsb' 64 11) (r.extractLsb' 0 64)))
      ∧ (r.getLsbD 75 = false → r.extractLsb' 0 64 = 0 → decodeRecord r = .ok (.hrd (r.extractLsb' 64 11)))
      ∧ (r.getLsbD 75 = false → r.extractLsb' 0 64 ≠ 0 →
          decodeRecord r = .error .malformedRecord
            ∧ ∀ (s : State) (rest : List Input), s.env.inputs = .access r :: rest →
                step s = .refused .malformedRecord)

/-! ### Steps (44_control.md, 20_memory.md) -/

/-- R200: the engine's turn. It is enabled exactly when BUSY = 1; then it runs the command PEND decodes to, or raises
ILLEGAL, and clears BUSY; no copy of the command is left in PEND (R76; log 17). The turn comes as an input or, with no input
left, by itself (log 1, log 14). -/
def Obligations.EngineStepRunsTheLatchedCommand : Prop :=
  ∀ s s0 : State,
    ((s.env.inputs = [] ∧ s0 = s)
      ∨ ∃ rest, s.env.inputs = .engineTurn :: rest ∧ s0 = { s with env := { s.env with inputs := rest } }) →
    (s.status.busy = false → step s = .next s0)
      ∧ (s.status.busy = true → ∀ i, decodeCommand s.pend = .ok i →
          ∃ t, exec i s0 = .next t ∧ step s = .next t.completed)
      ∧ (s.status.busy = true → ∀ e, decodeCommand s.pend = .error e →
          step s = .next { s0 with status := { s0.status with err := .illegal } }.completed)

/-- A host access is the instruction its record decodes to, executed on the state in which that input is used up
(the inputs: log 1). -/
def Obligations.HostAccessRunsTheRecord : Prop :=
  ∀ (s : State) (r : Record) (rest : List Input) (i : Instr),
    s.env.inputs = .access r :: rest → decodeRecord r = .ok i →
      step s = exec i { s with env := { s.env with inputs := rest } }

/-- `withFetchWord` places a word so that the very next step runs the instruction it decodes to (log 2, log 12;
a command's word is not left in PEND: log 17). -/
def Obligations.PlacedWordRunsNext : Prop :=
  ∀ (s : State) (nbits w : Nat) (i : Instr), decodeTableWord nbits w = some i →
    (nbits ≤ 64 → ∃ t,
      exec i { s with pend := BitVec.ofNat 64 w, status := { s.status with busy := true } } = .next t
        ∧ step (s.withFetchWord nbits w) = .next t.completed)
      ∧ (64 < nbits → step (s.withFetchWord nbits w) = exec i s)

/-- After a latched write of CMD, the engine's turn and a read of STATUS, the host has read BUSY = 0 and the state is the
one the command left (R74, R244, the macro CALL of R91), with no copy of the command in PEND (R76; log 17). The order of the
three is that of the inputs (log 1). -/
def Obligations.CallMacroCompletes : Prop :=
  ∀ (s : State) (w : Word) (rest : List Input) (i : Instr),
    s.status.busy = false → decodeCommand w = .ok i →
    s.env.inputs = .access (recordOf true 0x001 w) :: .engineTurn :: .access (recordOf false 0x002 0) :: rest →
      ∃ t u,
        exec i { s with pend := w, status := { s.status with busy := true },
                        env := { s.env with inputs := .access (recordOf false 0x002 0) :: rest } } = .next t
          ∧ Host.Core.run core 3 s = .next u
          ∧ u.env.rdata = Status.word { t.status with busy := false }
          ∧ u.env.rdata.getLsbD 0 = false
          ∧ u = { t.completed with env := { t.completed.env with inputs := rest, rdata := u.env.rdata } }

/-- R76, command coherence. The write of CMD that the block accepts copies its data into PEND; while BUSY = 1 the latched
command cannot be changed by a host access, and stays latched (R40, R66), and no command's execution writes PEND. When the
engine's turn has completed a command, no copy of it is left: what PEND holds then does not depend on the word that was
latched, even between two states that differ in nothing else (the turn: log 1, log 14; the value: log 17). -/
def Obligations.LatchedCommandIsStable : Prop :=
  (∀ (s : State) (v : Word), s.status.busy = false →
      exec (.hwr 0x001 v) s = .next { s with pend := v, status := { s.status with busy := true } })
    ∧ (∀ (s t : State) (a : HAddr) (v : Word), s.status.busy = true → exec (.hwr a v) s = .next t →
      t.pend = s.pend ∧ t.status.busy = true)
    ∧ (∀ (s t : State) (a : HAddr), exec (.hrd a) s = .next t → t.pend = s.pend ∧ t.status.busy = s.status.busy)
    ∧ (∀ (s t : State) (i : Instr), i.isCommand = true → exec i s = .next t →
        t.pend = s.pend ∧ t.status.busy = s.status.busy)
    ∧ (∀ (s : State) (v w : Word) (rest : List Input), s.status.busy = true →
        s.env.inputs = [] ∨ s.env.inputs = .engineTurn :: rest →
          ∃ t u, step { s with pend := v } = .next t ∧ step { s with pend := w } = .next u
            ∧ t.status.busy = false ∧ u.status.busy = false ∧ t.pend = u.pend)

/-- No run stops, whatever its length, when the records the host is still to send are well formed: every command and every
access has a next state (R201, R210, R214). -/
def Obligations.RunsNeverStop : Prop :=
  ∀ (n : Nat) (s : State), s.inputsWellFormed = true → ∃ t, Host.Core.run core n s = .next t

/-- R201's weak fairness, as the model gives it (log 14). From a state with BUSY = 1, BUSY clears after at most one step
more than there are inputs to come: by a completed command, or by a reset that abandons it (R240). If no reset is among the
inputs, the latched command completes: it comes to the engine's turn after at most as many steps as there are inputs, in
a state `u` in which the host's accesses have changed nothing of the block but OVR and BADADDR (R66, R76), and that turn
runs the command PEND decodes to, or raises ILLEGAL, and clears BUSY (R200), leaving no copy of it in PEND (R76; log 17). -/
def Obligations.BusyClearsWithinTheInputs : Prop :=
  ∀ s : State, s.inputsWellFormed = true → s.status.busy = true →
    (∃ j t, 1 ≤ j ∧ j ≤ s.env.inputs.length + 1 ∧ Host.Core.run core j s = .next t ∧ t.status.busy = false)
      ∧ ((∀ x ∈ s.env.inputs, x ≠ .reset) → ∃ (j : Nat) (u t : State),
          j ≤ s.env.inputs.length ∧ Host.Core.run core j s = .next u ∧ Host.Core.run core (j + 1) s = .next t
            ∧ u = { s with status := { s.status with ovr := u.status.ovr, badaddr := u.status.badaddr }, env := u.env }
            ∧ u.env.entropyDraws = s.env.entropyDraws ∧ u.env.baseDraws = s.env.baseDraws
            ∧ t.status.busy = false
            ∧ ∃ rest : List Input, ((u.env.inputs = [] ∧ rest = []) ∨ u.env.inputs = .engineTurn :: rest)
                ∧ (∀ i, decodeCommand s.pend = .ok i → ∃ w : State,
                    exec i { u with env := { u.env with inputs := rest } } = .next w
                      ∧ t = w.completed)
                ∧ (∀ e, decodeCommand s.pend = .error e →
                    t = { u with status := { u.status with err := .illegal }
                                 env := { u.env with inputs := rest } }.completed))

/-! ### Reset (70_reset_and_hazards.md) -/

/-- R241: the state after reset, for every LIMBS; the arrays' contents and PEND are unspecified, and nothing is said of
them but the arrays' sizes. The idle block then waits: whatever PEND holds, nothing happens. -/
def Obligations.StateAfterReset : Prop :=
  ∀ (limbs : Nat) (env : Env),
    let s := State.afterReset limbs env
    s.status.word = 0 ∧ s.status.busy = false ∧ s.status.err = .ok ∧ s.status.ovr = false ∧ s.status.badaddr = false
      ∧ s.status.iseeded = false ∧ s.status.xseeded = false
      ∧ s.limbs = limbs ∧ s.res = 0 ∧ s.arg0 = 0 ∧ s.arg1 = 0
      ∧ s.oracle.k = 5 ∧ s.oracle.fixb = false ∧ s.oracle.obase = 0
      ∧ s.isaac.iaa = 0 ∧ s.isaac.ibb = 0 ∧ s.isaac.icc = 0 ∧ s.isaac.icnt = 0
      ∧ s.xs.s0 = 0 ∧ s.xs.s1 = 0
      ∧ s.num.length = limbs ∧ s.big.length = limbs
      ∧ (env.inputs = [] → ∀ w, step { s with pend := w } = .next { s with pend := w })

/-- R240: the reset event sets the block to the state after reset, whatever it was doing: of the old block only INFO
stays, a latched command leaves nothing behind, and no entropy or base draw is consumed. -/
def Obligations.ResetEventAbandonsTheCommand : Prop :=
  ∀ (s : State) (rest : List Input), s.env.inputs = .reset :: rest →
    step s = .next (State.afterReset s.limbs { s.env with inputs := rest })
      ∧ (State.afterReset s.limbs { s.env with inputs := rest }).env.entropyDraws = s.env.entropyDraws
      ∧ (State.afterReset s.limbs { s.env with inputs := rest }).env.baseDraws = s.env.baseDraws
      ∧ (State.afterReset s.limbs { s.env with inputs := rest }).env.inputs = rest

/-- The invariant holds after reset, for every legal LIMBS, and of `State.reset`, which is the state after reset of the
instance with four limbs (the model's choice, log 3) and no input waiting (log 2). -/
def Obligations.ResetMeetsInv : Prop :=
  (∀ (limbs : Nat) (env : Env), 1 ≤ limbs → limbs ≤ 256 → BlockInv (State.afterReset limbs env))
    ∧ BlockInv State.reset
    ∧ ∃ env : Env, env.inputs = [] ∧ State.reset = State.afterReset 4 env

/-- Every step keeps the invariant: the arrays' sizes, a legal K (R28), a seeded Xorshift128+ unit away from (0, 0) (R35,
R136), IBB the last word of a seeded ISAAC64 block (R109). -/
def Obligations.StepKeepsInv : Prop :=
  ∀ s t : State, BlockInv s → step s = .next t → BlockInv t

/-- R27: INFO is constant through every step, and a host read returns it: bits 15:0 LIMBS, the others 0. -/
def Obligations.InfoIsConstant : Prop :=
  (∀ s t : State, step s = .next t → t.limbs = s.limbs)
    ∧ (∀ (limbs : Nat) (env : Env), (State.afterReset limbs env).limbs = limbs)
    ∧ (∀ s : State, s.limbs ≤ 256 → ∃ t, exec (.hrd 0x000) s = .next t ∧ t.env.rdata.toNat = s.limbs)

/-! ### Host registers (20_memory.md, 10_state.md) -/

/-- R61: the map, address by address. -/
def Obligations.RegisterMap : Prop :=
  ∀ (limbs : Nat) (a : HAddr),
    (a = 0x000 → hregAt limbs a = some .info) ∧ (a = 0x001 → hregAt limbs a = some .cmd)
      ∧ (a = 0x002 → hregAt limbs a = some .status) ∧ (a = 0x003 → hregAt limbs a = some .res)
      ∧ (a = 0x004 → hregAt limbs a = some .arg0) ∧ (a = 0x005 → hregAt limbs a = some .arg1)
      ∧ (a = 0x006 → hregAt limbs a = some .ocfgv) ∧ (a = 0x007 → hregAt limbs a = some .obase)
      ∧ (a = 0x008 → hregAt limbs a = some .iaa) ∧ (a = 0x009 → hregAt limbs a = some .ibb)
      ∧ (a = 0x00A → hregAt limbs a = some .icc) ∧ (a = 0x00B → hregAt limbs a = some .icnt)
      ∧ (a = 0x00C → hregAt limbs a = some .xs0) ∧ (a = 0x00D → hregAt limbs a = some .xs1)
      ∧ (0x00E ≤ a → a ≤ 0x0FF → hregAt limbs a = none)
      ∧ (0x100 ≤ a → a ≤ 0x1FF → hregAt limbs a = some (.mm (BitVec.ofNat 8 (a.toNat - 0x100))))
      ∧ (0x200 ≤ a → a ≤ 0x2FF → hregAt limbs a = some (.rsl (BitVec.ofNat 8 (a.toNat - 0x200))))
      ∧ (0x300 ≤ a → a ≤ 0x3FF → hregAt limbs a = some (.seed (BitVec.ofNat 8 (a.toNat - 0x300))))
      ∧ (0x400 ≤ a → a ≤ 0x4FF →
          hregAt limbs a = if a.toNat - 0x400 < limbs then some (.num (a.toNat - 0x400)) else none)
      ∧ (0x500 ≤ a → a ≤ 0x5FF →
          hregAt limbs a = if a.toNat - 0x500 < limbs then some (.big (a.toNat - 0x500)) else none)
      ∧ (0x600 ≤ a → hregAt limbs a = none)

/-- R63: which addresses are mapped and which the host may write. -/
def Obligations.MappedAndWritable : Prop :=
  ∀ (limbs : Nat) (a : HAddr), limbs ≤ 256 →
    (mapped limbs a = true ↔
      a.toNat ≤ 0x00D ∨ (0x100 ≤ a.toNat ∧ a.toNat ≤ 0x3FF) ∨ (0x400 ≤ a.toNat ∧ a.toNat < 0x400 + limbs)
        ∨ (0x500 ≤ a.toNat ∧ a.toNat < 0x500 + limbs))
      ∧ (writable limbs a = true ↔
          a = 0x001 ∨ a = 0x002 ∨ a = 0x004 ∨ a = 0x005 ∨ (0x300 ≤ a.toNat ∧ a.toNat ≤ 0x3FF)
            ∨ (0x400 ≤ a.toNat ∧ a.toNat < 0x400 + limbs))

/-- R24's table, bit by bit: the word the host reads from STATUS; and R211's seven error codes, which bits 7:4 hold. -/
def Obligations.StatusWordLayout : Prop :=
  ∀ st : Status,
    st.word.getLsbD 0 = st.busy ∧ st.word.extractLsb' 4 4 = st.err.code
      ∧ st.word.getLsbD 8 = st.ovr ∧ st.word.getLsbD 9 = st.badaddr
      ∧ st.word.getLsbD 10 = st.iseeded ∧ st.word.getLsbD 11 = st.xseeded
      ∧ st.word.extractLsb' 1 3 = 0 ∧ st.word.extractLsb' 12 52 = 0
      ∧ ErrCode.ok.code = 0 ∧ ErrCode.illegal.code = 1 ∧ ErrCode.seedlen.code = 2 ∧ ErrCode.degenerate.code = 3
      ∧ ErrCode.arg.code = 4 ∧ ErrCode.notseeded.code = 5 ∧ ErrCode.baserange.code = 6
      ∧ st.err.code.toNat ≤ 6

/-- R25: a write of v to STATUS clears OVR where v[8] = 1 and BADADDR where v[9] = 1 and does nothing else, BUSY = 1 or
not; a read of STATUS returns its exact value and has no side effect, BUSY = 1 or not. -/
def Obligations.StatusAccess : Prop :=
  ∀ (s : State) (v : Word),
    exec (.hwr 0x002 v) s = .next
        { s with status :=
            { s.status with
              ovr := if v.getLsbD 8 then false else s.status.ovr
              badaddr := if v.getLsbD 9 then false else s.status.badaddr } }
      ∧ exec (.hrd 0x002) s = .next { s with env := { s.env with rdata := s.status.word } }

/-- R64: HWR on every address: STATUS clears its sticky bits (R25); another write is turned away with BADADDR, turned
away with OVR, or the register takes the value and nothing else changes. -/
def Obligations.HostWrite : Prop :=
  ∀ (s : State) (a : HAddr) (v : Word),
    (a = 0x002 → exec (.hwr a v) s = .next
          { s with status :=
              { s.status with
                ovr := if v.getLsbD 8 then false else s.status.ovr
                badaddr := if v.getLsbD 9 then false else s.status.badaddr } })
      ∧ (writable s.limbs a = false →
          exec (.hwr a v) s = .next { s with status := { s.status with badaddr := true } })
      ∧ (a ≠ 0x002 → writable s.limbs a = true → s.status.busy = true →
          exec (.hwr a v) s = .next { s with status := { s.status with ovr := true } })
      ∧ (s.status.busy = false →
          (a = 0x001 → exec (.hwr a v) s = .next { s with pend := v, status := { s.status with busy := true } })
            ∧ (a = 0x004 → exec (.hwr a v) s = .next { s with arg0 := v })
            ∧ (a = 0x005 → exec (.hwr a v) s = .next { s with arg1 := v })
            ∧ (∀ i : BitVec 8, a.toNat = 0x300 + i.toNat →
                exec (.hwr a v) s = .next { s with seed := s.seed.set i.toNat v })
            ∧ (∀ i : Nat, i < s.limbs → i < 256 → a.toNat = 0x400 + i →
                exec (.hwr a v) s = .next { s with num := s.num.set i v }))

/-- R68: HRD on every address. Unmapped: 0 and BADADDR. CMD, STATUS and INFO: their value (CMD reads 0), BUSY = 1 or not
(CMD while BUSY = 1: log 7). Any other register: its value while BUSY = 0; while BUSY = 1 some value, and no state
changes. -/
def Obligations.HostRead : Prop :=
  ∀ (s : State) (a : HAddr),
    (mapped s.limbs a = false →
        exec (.hrd a) s = .next { s with status := { s.status with badaddr := true }, env := { s.env with rdata := 0 } })
      ∧ (a = 0x001 → exec (.hrd a) s = .next { s with env := { s.env with rdata := 0 } })
      ∧ (a = 0x002 → exec (.hrd a) s = .next { s with env := { s.env with rdata := s.status.word } })
      ∧ (a = 0x000 → exec (.hrd a) s =
          .next { s with env := { s.env with rdata := (BitVec.ofNat 16 s.limbs).setWidth 64 } })
      ∧ (mapped s.limbs a = true → 0x003 ≤ a → s.status.busy = true →
          ∃ v d, exec (.hrd a) s = .next { s with env := { s.env with rdata := v, anyDraws := d } })
      ∧ (s.status.busy = false →
          ∀ v : Word,
            (a = 0x003 ∧ v = s.res
              ∨ a = 0x004 ∧ v = s.arg0
              ∨ a = 0x005 ∧ v = s.arg1
              ∨ a = 0x006 ∧ v.toNat = s.oracle.k.toNat + 65536 * s.oracle.fixb.toNat
              ∨ a = 0x007 ∧ v = s.oracle.obase
              ∨ a = 0x008 ∧ v = s.isaac.iaa
              ∨ a = 0x009 ∧ v = s.isaac.ibb
              ∨ a = 0x00A ∧ v = s.isaac.icc
              ∨ a = 0x00B ∧ v.toNat = s.isaac.icnt.val
              ∨ a = 0x00C ∧ v = s.xs.s0
              ∨ a = 0x00D ∧ v = s.xs.s1
              ∨ (∃ i : BitVec 8, a.toNat = 0x100 + i.toNat ∧ v = s.isaac.mm[i.toNat])
              ∨ (∃ i : BitVec 8, a.toNat = 0x200 + i.toNat ∧ v = s.isaac.rsl[i.toNat])
              ∨ (∃ i : BitVec 8, a.toNat = 0x300 + i.toNat ∧ v = s.seed[i.toNat])
              ∨ (∃ i : Nat, i < s.limbs ∧ i < 256 ∧ a.toNat = 0x400 + i ∧ s.num[i]? = some v)
              ∨ (∃ i : Nat, i < s.limbs ∧ i < 256 ∧ a.toNat = 0x500 + i ∧ s.big[i]? = some v)) →
            exec (.hrd a) s = .next { s with env := { s.env with rdata := v } })

/-- R65: BADADDR is set by exactly the reads of unmapped addresses and the writes, other than to STATUS, of addresses that
are not writable; no command sets it. Such an access changes no other state, and such a read returns 0. A read of CMD
does not set it. -/
def Obligations.BadaddrIsSetExactlyBy : Prop :=
  ∀ (i : Instr) (s t : State), s.status.badaddr = false → exec i s = .next t →
    (t.status.badaddr = true ↔
      (∃ a, i = .hrd a ∧ mapped s.limbs a = false)
        ∨ ∃ a v, i = .hwr a v ∧ a ≠ 0x002 ∧ writable s.limbs a = false)
      ∧ (t.status.badaddr = true →
          t = { s with status := { s.status with badaddr := true }, env := { s.env with rdata := t.env.rdata } }
            ∧ (∀ a, i = .hrd a → t.env.rdata = 0) ∧ (∀ a v, i = .hwr a v → t.env.rdata = s.env.rdata))
      ∧ (i = .hrd 0x001 → t.status.badaddr = false)

/-- R66: OVR is set by exactly a write, to a writable address other than STATUS, while BUSY = 1, and that write is
dropped. -/
def Obligations.OvrIsSetExactlyBy : Prop :=
  ∀ (i : Instr) (s t : State), s.status.ovr = false → exec i s = .next t →
    (t.status.ovr = true ↔
      ∃ a v, i = .hwr a v ∧ a ≠ 0x002 ∧ writable s.limbs a = true ∧ s.status.busy = true)
      ∧ (t.status.ovr = true → t = { s with status := { s.status with ovr := true } })

/-- The frame of the host's accesses: neither changes INFO, RES, BIG, a generator, the oracle's configuration, ERR or a
seeded flag (R26, R210, R217), and HWR changes at most the one element its address names; HRD changes no register at all
but BADADDR. -/
def Obligations.HostAccessFrame : Prop :=
  (∀ (s t : State) (a : HAddr) (v : Word), exec (.hwr a v) s = .next t →
      t.limbs = s.limbs ∧ t.res = s.res ∧ t.big = s.big ∧ t.isaac = s.isaac ∧ t.xs = s.xs ∧ t.oracle = s.oracle
        ∧ t.env = s.env ∧ t.status.err = s.status.err
        ∧ t.status.iseeded = s.status.iseeded ∧ t.status.xseeded = s.status.xseeded
        ∧ (a ≠ 0x001 → t.pend = s.pend ∧ t.status.busy = s.status.busy)
        ∧ (a ≠ 0x004 → t.arg0 = s.arg0) ∧ (a ≠ 0x005 → t.arg1 = s.arg1)
        ∧ (∀ j : BitVec 8, a.toNat ≠ 0x300 + j.toNat → t.seed[j.toNat] = s.seed[j.toNat])
        ∧ (∀ j : Nat, a.toNat ≠ 0x400 + j → t.num[j]? = s.num[j]?))
    ∧ (∀ (s t : State) (a : HAddr), exec (.hrd a) s = .next t →
        t.limbs = s.limbs ∧ t.pend = s.pend ∧ t.arg0 = s.arg0 ∧ t.arg1 = s.arg1 ∧ t.res = s.res ∧ t.seed = s.seed
          ∧ t.num = s.num ∧ t.big = s.big ∧ t.isaac = s.isaac ∧ t.xs = s.xs ∧ t.oracle = s.oracle
          ∧ t.status = { s.status with badaddr := s.status.badaddr || !mapped s.limbs a }
          ∧ t.env.inputs = s.env.inputs ∧ t.env.entropyDraws = s.env.entropyDraws
          ∧ t.env.baseDraws = s.env.baseDraws)

/-! ### NOP, OCFG, XSEED, XNEXT -/

/-- R203: NOP sets ERR to OK and does nothing else; it is the all-zero word, and a word with OP = 0x00 and any other bit
set is not NOP but illegal. -/
def Obligations.NopEffect : Prop :=
  (∀ s : State, exec .nop s = .next { s with status := { s.status with err := .ok } })
    ∧ decodeCommand 0 = .ok .nop
    ∧ (∀ w : Word, opField w = 0x00 → w ≠ 0 → decodeCommand w = .error .illegalCommand)

/-- R171: OCFG with k ≥ 1 (a 16-bit operand) configures the oracle; with k = 0 it raises ARG and changes only ERR. -/
def Obligations.OcfgEffect : Prop :=
  ∀ (s : State) (k : Nat) (f : Bool), k ≤ 65535 →
    (k ≠ 0 → ∃ k16 : BitVec 16, k16.toNat = k ∧
        exec (.ocfg k f) s = .next
          { s with
            oracle := { k := k16, fixb := f, obase := if f = true then s.arg0 else s.oracle.obase }
            status := { s.status with err := .ok } })
      ∧ (k = 0 → exec (.ocfg k f) s = .next { s with status := { s.status with err := .arg } })

/-- R134: XSEED takes ARG0 and ARG1 as the stream's two words unless both are 0, which raises DEGENERATE. -/
def Obligations.XseedEffect : Prop :=
  ∀ s : State,
    (¬(s.arg0 = 0 ∧ s.arg1 = 0) →
        exec .xseed s = .next
          { s with xs := { s0 := s.arg0, s1 := s.arg1 }
                   status := { s.status with xseeded := true, err := .ok } })
      ∧ (s.arg0 = 0 → s.arg1 = 0 →
          exec .xseed s = .next { s with status := { s.status with err := .degenerate } })

/-- R131, R135: XNEXT of a seeded unit returns s0_new and steps the state; of an unseeded unit it raises NOTSEEDED. The
shift left drops the bits past bit 63 (R132). -/
def Obligations.XnextEffect : Prop :=
  ∀ s : State,
    (s.status.xseeded = true → ∀ t1 t2 t3 : Word,
        t1.toNat = s.xs.s0.toNat ^^^ (s.xs.s0.toNat * 2 ^ 23 % 2 ^ 64) →
        t2.toNat = t1.toNat ^^^ (t1.toNat / 2 ^ 17) →
        t3.toNat = t2.toNat ^^^ s.xs.s1.toNat →
        exec .xnext s = .next
          { s with res := t3
                   xs := { s0 := s.xs.s1, s1 := t3 + s.xs.s1 }
                   status := { s.status with err := .ok } })
      ∧ (s.status.xseeded = false →
          exec .xnext s = .next { s with status := { s.status with err := .notseeded } })

/-- R136: with L(s) = u ^ (u >> 17), u = s ^ (s << 23), both halves of L and L itself are bijections and L(0) = 0; the
state map of XS_NEXT is (s0, s1) ↦ (s1, (L(s0) ^ s1) + s1), a bijection whose only state mapping to (0, 0) is (0, 0), so a
unit away from (0, 0) stays away from it for ever. -/
def Obligations.XorshiftNeverDegenerates : Prop :=
  let l : Word → Word := fun s => (s ^^^ s <<< 23) ^^^ (s ^^^ s <<< 23) >>> 17
  Function.Bijective (fun s : Word => s ^^^ s <<< 23)
    ∧ Function.Bijective (fun u : Word => u ^^^ u >>> 17)
    ∧ Function.Bijective l ∧ l 0 = 0
    ∧ (∀ x : Xorshift, (xsNext x).2 = { s0 := x.s1, s1 := (l x.s0 ^^^ x.s1) + x.s1 })
    ∧ Function.Bijective (fun x : Xorshift => (xsNext x).2)
    ∧ (∀ x p : Xorshift, (xsNext x).2 = p → x.s1 = p.s0 ∧ l x.s0 = (p.s1 - p.s0) ^^^ p.s0)
    ∧ (∀ x : Xorshift, (xsNext x).2 = { s0 := 0, s1 := 0 } ↔ x = { s0 := 0, s1 := 0 })
    ∧ (∀ (x : Xorshift) (j : Nat), x ≠ { s0 := 0, s1 := 0 } → afterXsWords j x ≠ { s0 := 0, s1 := 0 })

/-- R137: from a state (s0, s1) other than (0, 0) with L(s0) = s1 the word returned is 0 although the state is valid, and
the state stays valid. -/
def Obligations.XorshiftMayReturnZero : Prop :=
  ∀ s0 : Word, s0 ≠ 0 →
    let x : Xorshift := { s0 := s0, s1 := (s0 ^^^ s0 <<< 23) ^^^ (s0 ^^^ s0 <<< 23) >>> 17 }
    (xsNext x).1 = 0 ∧ (xsNext x).2 ≠ { s0 := 0, s1 := 0 }

/-! ### ISAAC64 (40_isaac64.md) -/

/-- R101 and R102: MIX on every input, its 24 word operations with a fresh name for each value (a digit counts how often
the word has been written); the golden-ratio constant; and the eight words that four MIXes make of eight copies of it. -/
def Obligations.GoldenMix : Prop :=
  (∀ a b c d e f g h : Word,
      let a1 := a - e;    let f1 := f ^^^ h >>> 9;     let h1 := h + a1
      let b1 := b - f1;   let g1 := g ^^^ a1 <<< 9;    let a2 := a1 + b1
      let c1 := c - g1;   let h2 := h1 ^^^ b1 >>> 23;  let b2 := b1 + c1
      let d1 := d - h2;   let a3 := a2 ^^^ c1 <<< 15;  let c2 := c1 + d1
      let e1 := e - a3;   let b3 := b2 ^^^ d1 >>> 14;  let d2 := d1 + e1
      let f2 := f1 - b3;  let c3 := c2 ^^^ e1 <<< 20;  let e2 := e1 + f2
      let g2 := g1 - c3;  let d3 := d2 ^^^ f2 >>> 17;  let f3 := f2 + g2
      let h3 := h2 - d3;  let e3 := e2 ^^^ g2 <<< 14;  let g3 := g2 + h3
      mix { a := a, b := b, c := c, d := d, e := e, f := f, g := g, h := h }
        = { a := a3, b := b3, c := c3, d := d3, e := e3, f := f3, g := g3, h := h3 })
    ∧ golden = 0x9e3779b97f4a7c13
    ∧ (let k : Word := 0x9e3779b97f4a7c13
       mix (mix (mix (mix { a := k, b := k, c := k, d := k, e := k, f := k, g := k, h := k })))
         = { a := 0x647c4677a2884b7c, b := 0xb9f8b322c73ac862, c := 0x8c0ea5053d4712a0, d := 0xb29b2e824a595524
             e := 0x82f053db8355e0ce, f := 0x48fe4a0fa5a09315, g := 0xae985bf2cbfc89ed, h := 0x98f5704f6c44c0ab })

/-- R103: RANDINIT, with the accumulators after each group of the two passes written out as two sequences that are never
reset. The second pass adds the words the first stored in the group; MM ends as the second pass stored it; then REGEN runs
from IAA = IBB = ICC = 0 and the cursor is 256. What RSL held makes no difference. -/
def Obligations.RandinitEffect : Prop :=
  let k : Word := 0x9e3779b97f4a7c13
  ∀ (u : Isaac) (seed : Pool),
    (∀ rsl : Pool, randinit { u with rsl := rsl } seed = randinit u seed)
      ∧ ∃ (p q : Nat → Accum) (mm : Pool),
        p 0 = mix (mix (mix (mix { a := k, b := k, c := k, d := k, e := k, f := k, g := k, h := k })))
          ∧ (∀ g < 32,
              let w : Nat → Word := fun l => seed.get8 (BitVec.ofNat 8 (8 * g + l))
              p (g + 1) = mix { a := (p g).a + w 0, b := (p g).b + w 1, c := (p g).c + w 2, d := (p g).d + w 3
                                e := (p g).e + w 4, f := (p g).f + w 5, g := (p g).g + w 6, h := (p g).h + w 7 })
          ∧ q 0 = p 32
          ∧ (∀ g < 32,
              q (g + 1) = mix { a := (q g).a + (p (g + 1)).a, b := (q g).b + (p (g + 1)).b, c := (q g).c + (p (g + 1)).c
                                d := (q g).d + (p (g + 1)).d, e := (q g).e + (p (g + 1)).e, f := (q g).f + (p (g + 1)).f
                                g := (q g).g + (p (g + 1)).g, h := (q g).h + (p (g + 1)).h })
          ∧ (∀ g < 32,
              let w : Nat → Word := fun l => mm.get8 (BitVec.ofNat 8 (8 * g + l))
              q (g + 1) = { a := w 0, b := w 1, c := w 2, d := w 3, e := w 4, f := w 5, g := w 6, h := w 7 })
          ∧ randinit u seed =
              { regen { mm := mm, rsl := u.rsl, iaa := 0, ibb := 0, icc := 0, icnt := u.icnt } with icnt := 256 }

/-- R106 (with R104's ind and R105's m2 and transforms): one step of REGEN, element by element. The second `ind` sees the
value just written when it selects element m. -/
def Obligations.RegenStepEffect : Prop :=
  ∀ (r : Sweep) (m : BitVec 8) (x ma a y indy : Word),
    x = r.mm[m.toNat] →
    (m.toNat % 4 = 0 → ma = ~~~(r.a ^^^ r.a <<< 21)) → (m.toNat % 4 = 1 → ma = r.a ^^^ r.a >>> 5) →
    (m.toNat % 4 = 2 → ma = r.a ^^^ r.a <<< 12) → (m.toNat % 4 = 3 → ma = r.a ^^^ r.a >>> 33) →
    a = ma + r.mm[(m + 128).toNat] →
    y = r.mm[(x.setWidth 8).toNat] + a + r.b →
    indy = (if (y >>> 8).setWidth 8 = m then y else r.mm[((y >>> 8).setWidth 8).toNat]) →
      (∀ j : BitVec 8, (sweepStep r m).mm[j.toNat] = if j = m then y else r.mm[j.toNat])
        ∧ (∀ j : BitVec 8, (sweepStep r m).rsl[j.toNat] = if j = m then indy + x else r.rsl[j.toNat])
        ∧ (sweepStep r m).a = a ∧ (sweepStep r m).b = indy + x

/-- R105 and R109: REGEN is 256 steps from a = IAA and b = IBB + (ICC + 1); it leaves `a` and `b` in IAA and IBB, ICC one
higher and the cursor alone. IBB is then RSL[255], and the first word ISAAC_NEXT returns after a REGEN is IBB. -/
def Obligations.RegenEffect : Prop :=
  ∀ u : Isaac,
    (∃ r : Nat → Sweep,
        r 0 = { mm := u.mm, rsl := u.rsl, a := u.iaa, b := u.ibb + (u.icc + 1) }
          ∧ (∀ m < 256, r (m + 1) = sweepStep (r m) (BitVec.ofNat 8 m))
          ∧ regen u = { mm := (r 256).mm, rsl := (r 256).rsl, iaa := (r 256).a, ibb := (r 256).b, icc := u.icc + 1
                        icnt := u.icnt })
      ∧ (regen u).ibb = (regen u).rsl[255]
      ∧ (u.icnt = 0 → (isaacNext u).1 = (isaacNext u).2.ibb ∧ (isaacNext u).2.ibb = (regen u).ibb)

/-- R110: ISEED L. L = 256 builds the stream of the SEED buffer, L = 0 that of the next 256 entropy words, and the SEED
buffer is not changed; any other L raises SEEDLEN and changes only ERR. -/
def Obligations.IseedEffect : Prop :=
  ∀ (s : State) (len : Nat),
    (len = 256 → exec (.iseed len) s = .next
        { s with isaac := randinit s.isaac s.seed, status := { s.status with iseeded := true, err := .ok } })
      ∧ (len = 0 → ∃ drawn : Pool, (∀ i : BitVec 8, drawn[i.toNat] = Config.entropy (s.env.entropyDraws + i.toNat)) ∧
          exec (.iseed len) s = .next
            { s with isaac := randinit s.isaac drawn, status := { s.status with iseeded := true, err := .ok }
                     env := { s.env with entropyDraws := s.env.entropyDraws + 256 } })
      ∧ (len ≠ 0 → len ≠ 256 → exec (.iseed len) s = .next { s with status := { s.status with err := .seedlen } })

/-- R112: after ISEED 256 the whole unit, and so every word it will return, is a function of the seed alone; after ISEED 0
it is a function of the entropy draws, which two states with the same count of draws share (log 5). Nothing of the old
stream or of the rest of the block enters. -/
def Obligations.SeedAloneDeterminesTheStream : Prop :=
  ∀ s1 s2 t1 t2 : State,
    (s1.seed = s2.seed → exec (.iseed 256) s1 = .next t1 → exec (.iseed 256) s2 = .next t2 →
        t1.isaac = t2.isaac
          ∧ ∀ j, (isaacNext (afterWords j t1.isaac)).1 = (isaacNext (afterWords j t2.isaac)).1)
      ∧ (s1.env.entropyDraws = s2.env.entropyDraws →
          exec (.iseed 0) s1 = .next t1 → exec (.iseed 0) s2 = .next t2 →
          t1.isaac = t2.isaac
            ∧ ∀ j, (isaacNext (afterWords j t1.isaac)).1 = (isaacNext (afterWords j t2.isaac)).1)

/-- R107, R111: INEXT of a seeded unit with words left returns RSL[ICNT - 1] and lowers ICNT; with ICNT = 0 it runs REGEN
first and returns the new RSL[255]; of an unseeded unit it raises NOTSEEDED. -/
def Obligations.InextEffect : Prop :=
  ∀ s : State,
    (s.status.iseeded = true → ∀ c : Fin 257, c.val + 1 = s.isaac.icnt.val → ∀ j : Fin 256, j.val = c.val →
        exec .inext s = .next
          { s with res := s.isaac.rsl[j], isaac := { s.isaac with icnt := c }, status := { s.status with err := .ok } })
      ∧ (s.status.iseeded = true → s.isaac.icnt = 0 →
          exec .inext s = .next
            { s with res := (regen s.isaac).rsl[255], isaac := { regen s.isaac with icnt := 255 }
                     status := { s.status with err := .ok } })
      ∧ (s.status.iseeded = false →
          exec .inext s = .next { s with status := { s.status with err := .notseeded } })

/-- R108: the cursor law. Call j + 1 of ISAAC_NEXT after an ISEED returns element 255 - (j mod 256) of block j / 256, where
block 0 is the one RANDINIT made and block q + 1 comes by REGEN from block q; ICC is then j / 256 + 1 modulo 2^64, ICNT is
that element's index, and ICNT = 256 only right after ISEED. -/
def Obligations.CursorLaw : Prop :=
  ∀ (u : Isaac) (seed : Pool) (j : Nat),
    let u0 := randinit u seed
    (isaacNext (afterWords j u0)).1 = (regen^[j / 256] u0).rsl[255 - j % 256]
      ∧ (isaacNext (afterWords j u0)).2.icc = BitVec.ofNat 64 (j / 256 + 1)
      ∧ (isaacNext (afterWords j u0)).2.icnt.val = 255 - j % 256
      ∧ u0.icc = 1
      ∧ ((afterWords j u0).icnt = 256 ↔ j = 0)

/-! ### Bit-packer (42_bitpacker.md) -/

/-- R155: IRANDBITS n. An illegal n raises ARG (before NOTSEEDED, R212), an unseeded unit NOTSEEDED; otherwise BIG takes
the packed integer in LIMBS limbs and the unit has advanced. -/
def Obligations.IrandbitsEffect : Prop :=
  ∀ (s : State) (n : Nat),
    ((n = 0 ∨ 64 * s.limbs < n) → exec (.irandbits n) s = .next { s with status := { s.status with err := .arg } })
      ∧ (1 ≤ n → n ≤ 64 * s.limbs → s.status.iseeded = false →
          exec (.irandbits n) s = .next { s with status := { s.status with err := .notseeded } })
      ∧ (1 ≤ n → n ≤ 64 * s.limbs → s.status.iseeded = true →
          ∃ ws : List Word, ws.length = s.limbs
            ∧ (∀ i w, ws[i]? = some w → w = BitVec.ofNat 64 ((packHigh n s.isaac).1 / 2 ^ (64 * i)))
            ∧ exec (.irandbits n) s = .next
                { s with big := ws, isaac := (packHigh n s.isaac).2, status := { s.status with err := .ok } })

/-- R156: XRANDBITS n, likewise on the Xorshift128+ stream. -/
def Obligations.XrandbitsEffect : Prop :=
  ∀ (s : State) (n : Nat),
    ((n = 0 ∨ 64 * s.limbs < n) → exec (.xrandbits n) s = .next { s with status := { s.status with err := .arg } })
      ∧ (1 ≤ n → n ≤ 64 * s.limbs → s.status.xseeded = false →
          exec (.xrandbits n) s = .next { s with status := { s.status with err := .notseeded } })
      ∧ (1 ≤ n → n ≤ 64 * s.limbs → s.status.xseeded = true →
          ∃ ws : List Word, ws.length = s.limbs
            ∧ (∀ i w, ws[i]? = some w → w = BitVec.ofNat 64 ((packLow n s.xs).1 / 2 ^ (64 * i)))
            ∧ exec (.xrandbits n) s = .next
                { s with big := ws, xs := (packLow n s.xs).2, status := { s.status with err := .ok } })

/-- R150 to R152, as a recurrence: n ≤ 64 bits are the high (ISAAC64) or low (Xorshift128+) n bits of one word; more
bits are a whole word in the most significant place, and the rest of them packed after it. -/
def Obligations.PackerTakesWordsInOrder : Prop :=
  (∀ (u : Isaac) (n : Nat), 1 ≤ n → n ≤ 64 →
      packHigh n u = ((isaacNext u).1.toNat / 2 ^ (64 - n), (isaacNext u).2))
    ∧ (∀ (u : Isaac) (n : Nat), 1 ≤ n →
        packHigh (64 + n) u =
          ((isaacNext u).1.toNat * 2 ^ n + (packHigh n (isaacNext u).2).1, (packHigh n (isaacNext u).2).2))
    ∧ (∀ (x : Xorshift) (n : Nat), 1 ≤ n → n ≤ 64 →
        packLow n x = ((xsNext x).1.toNat % 2 ^ n, (xsNext x).2))
    ∧ (∀ (x : Xorshift) (n : Nat), 1 ≤ n →
        packLow (64 + n) x =
          ((xsNext x).1.toNat * 2 ^ n + (packLow n (xsNext x).2).1, (packLow n (xsNext x).2).2))

/-- R153: BIG holds the packed integer whole: BIGVAL(BIG) is it, and every limb from ceil(n / 64) on is 0. -/
def Obligations.BigHoldsThePackedInteger : Prop :=
  ∀ (s t : State) (n : Nat), 1 ≤ n → n ≤ 64 * s.limbs →
    (s.status.iseeded = true → exec (.irandbits n) s = .next t →
        bigval t.big = (packHigh n s.isaac).1 ∧ t.big.length = s.limbs
          ∧ ∀ i w, (n + 63) / 64 ≤ i → t.big[i]? = some w → w = 0)
      ∧ (s.status.xseeded = true → exec (.xrandbits n) s = .next t →
          bigval t.big = (packLow n s.xs).1 ∧ t.big.length = s.limbs
            ∧ ∀ i w, (n + 63) / 64 ≤ i → t.big[i]? = some w → w = 0)

/-- R157: for every legal n, what IRANDBITS n and XRANDBITS n leave in BIG lies in [0, 2^n). -/
def Obligations.RandbitsRange : Prop :=
  ∀ (s t : State) (n : Nat), 1 ≤ n → n ≤ 64 * s.limbs →
    (s.status.iseeded = true → exec (.irandbits n) s = .next t → bigval t.big < 2 ^ n)
      ∧ (s.status.xseeded = true → exec (.xrandbits n) s = .next t → bigval t.big < 2 ^ n)

/-- R158: a successful randbits of n bits advances its generator by exactly ceil(n / 64) words, as that many INEXT or
XNEXT commands would, and RES is not written. -/
def Obligations.RandbitsWordCount : Prop :=
  ∀ (s t : State) (n : Nat), 1 ≤ n → n ≤ 64 * s.limbs →
    (s.status.iseeded = true → exec (.irandbits n) s = .next t →
        t.isaac = afterWords ((n + 63) / 64) s.isaac ∧ t.res = s.res)
      ∧ (s.status.xseeded = true → exec (.xrandbits n) s = .next t →
          t.xs = afterXsWords ((n + 63) / 64) s.xs ∧ t.res = s.res)

/-! ### Primality oracle (43_primality.md) -/

/-- R172: MODEXP is exact, for all numbers, and its value lies in [0, n). -/
def Obligations.ModexpIsExact : Prop :=
  ∀ a e n : Nat, modexp a e n = a ^ e % n ∧ (0 < n → modexp a e n < n)

/-- R174: DECOMPOSE of an even m ≥ 4 gives m = 2^r s with s odd and r ≥ 1. -/
def Obligations.DecomposeIsExact : Prop :=
  ∀ m : Nat, m % 2 = 0 → 4 ≤ m →
    m = 2 ^ (decompose m).1 * (decompose m).2 ∧ (decompose m).2 % 2 = 1 ∧ 1 ≤ (decompose m).1

/-- R173, R176, R177: FERMAT on every n. Guards in order; for odd n ≥ 5 a fixed base out of range raises BASERANGE and
changes only ERR, and otherwise RES is 1 exactly when every one of the K trials passes. -/
def Obligations.FermatEffect : Prop :=
  ∀ (s : State) (n : Nat), bigval s.num = n →
    (n ≤ 1 → exec .fermat s = .next { s with res := 0, status := { s.status with err := .ok } })
      ∧ (n = 2 ∨ n = 3 → exec .fermat s = .next { s with res := 1, status := { s.status with err := .ok } })
      ∧ (4 ≤ n → n % 2 = 0 → exec .fermat s = .next { s with res := 0, status := { s.status with err := .ok } })
      ∧ (5 ≤ n → n % 2 = 1 → s.oracle.k ≠ 0 → baseOutOfRange s n →
          exec .fermat s = .next { s with status := { s.status with err := .baserange } })
      ∧ (5 ≤ n → n % 2 = 1 → ¬baseOutOfRange s n → ∃ (v : Word) (d : Nat),
          exec .fermat s = .next
              { s with res := v, status := { s.status with err := .ok }, env := { s.env with baseDraws := d } }
            ∧ (v = 1 ∨ v = 0)
            ∧ (v = 1 ↔ ∀ t < s.oracle.k.toNat, FermatPasses n (trialBase s n t)))

/-- R174, R175, R176, R178: MILLERRABIN on every n, likewise. -/
def Obligations.MillerRabinEffect : Prop :=
  ∀ (s : State) (n : Nat), bigval s.num = n →
    (n ≤ 1 → exec .millerrabin s = .next { s with res := 0, status := { s.status with err := .ok } })
      ∧ (n = 2 ∨ n = 3 → exec .millerrabin s = .next { s with res := 1, status := { s.status with err := .ok } })
      ∧ (4 ≤ n → n % 2 = 0 → exec .millerrabin s = .next { s with res := 0, status := { s.status with err := .ok } })
      ∧ (5 ≤ n → n % 2 = 1 → s.oracle.k ≠ 0 → baseOutOfRange s n →
          exec .millerrabin s = .next { s with status := { s.status with err := .baserange } })
      ∧ (5 ≤ n → n % 2 = 1 → ¬baseOutOfRange s n → ∃ (v : Word) (d : Nat),
          exec .millerrabin s = .next
              { s with res := v, status := { s.status with err := .ok }, env := { s.env with baseDraws := d } }
            ∧ (v = 1 ∨ v = 0)
            ∧ (v = 1 ↔ ∀ t < s.oracle.k.toNat, MillerRabinPasses n (trialBase s n t)))

/-- R176 and R8: a drawn base lies in [2, n-2] for every n ≥ 5 the tests draw for, and successive trials take successive
answers of the base source. -/
def Obligations.DrawnBasesAreInRange : Prop :=
  ∀ (s : State) (n t d : Nat), 5 ≤ n → s.oracle.fixb = false →
    2 ≤ trialBase s n t ∧ trialBase s n t ≤ n - 2
      ∧ getBase s.oracle n d = .ok (trialBase { s with env := { s.env with baseDraws := d } } n 0, d + 1)

/-- R183: a test of odd n ≥ 5 with drawn bases makes K draws when the result is 1, and t when trial t is the first to
fail; tests of n < 5 or of even n make none, nor does any test with a fixed base. -/
def Obligations.DrawCount : Prop :=
  ∀ (s t : State) (n : Nat), bigval s.num = n →
    (5 ≤ n → n % 2 = 1 → s.oracle.fixb = false → exec .fermat s = .next t →
        (t.res = 1 → t.env.baseDraws = s.env.baseDraws + s.oracle.k.toNat)
          ∧ (t.res = 0 → ∃ j, 1 ≤ j ∧ j ≤ s.oracle.k.toNat ∧ t.env.baseDraws = s.env.baseDraws + j
              ∧ ¬FermatPasses n (trialBase s n (j - 1)) ∧ ∀ i, i + 1 < j → FermatPasses n (trialBase s n i)))
      ∧ (5 ≤ n → n % 2 = 1 → s.oracle.fixb = false → exec .millerrabin s = .next t →
        (t.res = 1 → t.env.baseDraws = s.env.baseDraws + s.oracle.k.toNat)
          ∧ (t.res = 0 → ∃ j, 1 ≤ j ∧ j ≤ s.oracle.k.toNat ∧ t.env.baseDraws = s.env.baseDraws + j
              ∧ ¬MillerRabinPasses n (trialBase s n (j - 1))
              ∧ ∀ i, i + 1 < j → MillerRabinPasses n (trialBase s n i)))
      ∧ ((n < 5 ∨ n % 2 = 0 ∨ s.oracle.fixb = true) →
          (exec .fermat s = .next t ∨ exec .millerrabin s = .next t) → t.env.baseDraws = s.env.baseDraws)

/-- R179: the small-n table, for both commands, whatever K, FIXB, OBASE and the draws. -/
def Obligations.SmallNumbersTable : Prop :=
  ∀ (s : State) (n : Nat), bigval s.num = n → (n < 5 ∨ n % 2 = 0) →
    ∃ v : Word, (v = 1 ↔ n = 2 ∨ n = 3) ∧ (v = 0 ↔ ¬(n = 2 ∨ n = 3))
      ∧ exec .fermat s = .next { s with res := v, status := { s.status with err := .ok } }
      ∧ exec .millerrabin s = .next { s with res := v, status := { s.status with err := .ok } }

/-- R180: for the same bases, raising K changes a result only from 1 to 0, never from 0 to 1. With FIXB = 1 the one base is
OBASE. With FIXB = 0 the two runs have the same bases because they start from states with the same count of base draws,
whose answers are then the same: the model's choice (log 5). -/
def Obligations.MoreTrialsNeverTurnZeroIntoOne : Prop :=
  ∀ (s t t' : State) (k : BitVec 16), s.oracle.k.toNat ≤ k.toNat →
    let s' : State := { s with oracle := { s.oracle with k := k } }
    (exec .fermat s = .next t → exec .fermat s' = .next t' → t.status.err = .ok → t.res = 0 →
        t'.status.err = .ok ∧ t'.res = 0)
      ∧ (exec .millerrabin s = .next t → exec .millerrabin s' = .next t' → t.status.err = .ok → t.res = 0 →
          t'.status.err = .ok ∧ t'.res = 0)

/-- R181: per base, a Miller–Rabin trial that passes is a Fermat trial that passes; 341 with base 2 shows that the
converse fails. -/
def Obligations.MillerRabinImpliesFermat : Prop :=
  (∀ n a : Nat, 5 ≤ n → n % 2 = 1 → mrTrial n a = true → fermatTrial n a = true)
    ∧ fermatTrial 341 2 = true ∧ mrTrial 341 2 = false

/-- R182: no prime is ever reported "not prime", by either test, under every draw and every K. -/
def Obligations.PrimesAlwaysPass : Prop :=
  ∀ (s : State) (n : Nat), bigval s.num = n → n.Prime → (5 ≤ n → ¬baseOutOfRange s n) →
    (∃ t, exec .fermat s = .next t ∧ t.res = 1 ∧ t.status.err = .ok)
      ∧ ∃ t, exec .millerrabin s = .next t ∧ t.res = 1 ∧ t.status.err = .ok

/-- R30: no instruction but OCFG writes K, FIXB or OBASE, and the primality commands write no state but RES, ERR and the
count of draws. -/
def Obligations.OracleConfigurationIsImmutable : Prop :=
  (∀ (i : Instr) (s t : State), (∀ k f, i ≠ .ocfg k f) → exec i s = .next t → t.oracle = s.oracle)
    ∧ (∀ (s t : State), exec .fermat s = .next t ∨ exec .millerrabin s = .next t →
        t = { s with res := t.res, status := { s.status with err := t.status.err }
                     env := { s.env with baseDraws := t.env.baseDraws } })

/-! ### Errors and frames (60_exceptions.md, 10_state.md R42) -/

/-- R214: a command that raises an error changes nothing but ERR, and consumes no draw; the engine step then clears
BUSY and PEND gives up the word (R76). That this is the machine's very next step when no input is left is the model's choice
(log 14), and so is the free value PEND then holds (log 17). -/
def Obligations.ErrorsChangeOnlyErr : Prop :=
  ∀ (i : Instr) (s t : State), i.isCommand = true → exec i s = .next t → t.status.err ≠ .ok →
    t = { s with status := { s.status with err := t.status.err } }
      ∧ (s.env.inputs = [] → s.status.busy = true → decodeCommand s.pend = .ok i →
          step s = .next { s with status := { s.status with err := t.status.err } }.completed)

/-- R42: the access matrix, as a frame: what each command leaves unchanged, row by row. STATUS.BUSY, OVR, BADADDR, PEND,
ARG0, ARG1, SEED, NUM, INFO and the inputs are unchanged by every command (R26). -/
def Obligations.CommandFrame : Prop :=
  ∀ (i : Instr) (s t : State), i.isCommand = true → exec i s = .next t →
    t.limbs = s.limbs ∧ t.pend = s.pend ∧ t.arg0 = s.arg0 ∧ t.arg1 = s.arg1 ∧ t.seed = s.seed ∧ t.num = s.num
      ∧ t.status.busy = s.status.busy ∧ t.status.ovr = s.status.ovr ∧ t.status.badaddr = s.status.badaddr
      ∧ t.env.inputs = s.env.inputs ∧ t.env.rdata = s.env.rdata ∧ t.env.anyDraws = s.env.anyDraws
      ∧ (t.isaac ≠ s.isaac → (∃ len, i = .iseed len) ∨ i = .inext ∨ ∃ n, i = .irandbits n)
      ∧ (t.status.iseeded ≠ s.status.iseeded → ∃ len, i = .iseed len)
      ∧ (t.xs ≠ s.xs → i = .xseed ∨ i = .xnext ∨ ∃ n, i = .xrandbits n)
      ∧ (t.status.xseeded ≠ s.status.xseeded → i = .xseed)
      ∧ (t.oracle ≠ s.oracle → ∃ k f, i = .ocfg k f)
      ∧ (t.oracle.obase ≠ s.oracle.obase → ∃ k, i = .ocfg k true)
      ∧ (t.big ≠ s.big → (∃ n, i = .irandbits n) ∨ ∃ n, i = .xrandbits n)
      ∧ (t.res ≠ s.res → i = .inext ∨ i = .xnext ∨ i = .fermat ∨ i = .millerrabin)
      ∧ (t.env.entropyDraws ≠ s.env.entropyDraws → i = .iseed 0)
      ∧ (t.env.baseDraws ≠ s.env.baseDraws → i = .fermat ∨ i = .millerrabin)

/-- R26: ERR is written by commands alone; OVR and BADADDR are set by host accesses alone and cleared only by a write to
STATUS; ISEEDED and XSEEDED are set only by a successful ISEED and XSEED and cleared by no instruction. Over steps: a
seeded flag that is set stays set until a reset event (R240). -/
def Obligations.StatusWriters : Prop :=
  (∀ (i : Instr) (s t : State), exec i s = .next t →
      (t.status.err ≠ s.status.err → i.isCommand = true)
        ∧ (t.status.ovr ≠ s.status.ovr → i.isCommand = false)
        ∧ (t.status.badaddr ≠ s.status.badaddr → i.isCommand = false)
        ∧ (s.status.ovr = true → t.status.ovr = false → ∃ v, i = .hwr 0x002 v)
        ∧ (s.status.badaddr = true → t.status.badaddr = false → ∃ v, i = .hwr 0x002 v)
        ∧ (t.status.iseeded ≠ s.status.iseeded →
            t.status.iseeded = true ∧ t.status.err = .ok ∧ ∃ len, i = .iseed len)
        ∧ (t.status.xseeded ≠ s.status.xseeded → t.status.xseeded = true ∧ t.status.err = .ok ∧ i = .xseed))
    ∧ (∀ s t : State, (∀ rest, s.env.inputs ≠ .reset :: rest) → step s = .next t →
        (s.status.iseeded = true → t.status.iseeded = true) ∧ (s.status.xseeded = true → t.status.xseeded = true))
end

