-- ==== Sys2Proof/Laws/Decode.lean ====
section
/-! SUPPORT. Command words by fields: what selects a row, and what a code's fields are. -/

namespace Sys2Proof

/-! ### Words as their fields -/

theorem append_inj' {m n : Nat} {x1 x2 : BitVec m} {y1 y2 : BitVec n} :
    x1 ++ y1 = x2 ++ y2 ↔ x1 = x2 ∧ y1 = y2 := by
  constructor
  · intro h
    have hy : y1 = y2 := by
      have := congrArg (BitVec.setWidth n) h
      simpa [BitVec.setWidth_append] using this
    subst hy
    exact ⟨(BitVec.append_left_inj y1).1 h, rfl⟩
  · rintro ⟨rfl, rfl⟩; rfl

/-- The 16 bits of IMM16. -/
def immBits (w : Word) : BitVec 16 := w.extractLsb' 16 16

/-- A word with these fields (R80). -/
def joinFields (rsv1 : BitVec 32) (imm : BitVec 16) (rsv0 : BitVec 7) (f : Bool) (op : BitVec 8) : Word :=
  rsv1 ++ (imm ++ (rsv0 ++ (BitVec.ofBool f ++ op)))

theorem joinFields_fields (w : Word) :
    joinFields (rsv1Field w) (immBits w) (rsv0Field w) (flagField w) (opField w) = w := by
  have h : BitVec.ofBool (flagField w) = w.extractLsb' 8 1 := by
    apply BitVec.eq_of_getLsbD_eq
    intro i hi
    obtain rfl : i = 0 := by omega
    simp [flagField]
  have h1 : w.extractLsb' 8 1 ++ w.extractLsb' 0 8 = w.extractLsb' 0 9 :=
    BitVec.extractLsb'_append_extractLsb'_eq_extractLsb' rfl
  have h2 : w.extractLsb' 9 7 ++ w.extractLsb' 0 9 = w.extractLsb' 0 16 :=
    BitVec.extractLsb'_append_extractLsb'_eq_extractLsb' rfl
  have h3 : w.extractLsb' 16 16 ++ w.extractLsb' 0 16 = w.extractLsb' 0 32 :=
    BitVec.extractLsb'_append_extractLsb'_eq_extractLsb' rfl
  have h4 : w.extractLsb' 32 32 ++ w.extractLsb' 0 32 = w.extractLsb' 0 64 :=
    BitVec.extractLsb'_append_extractLsb'_eq_extractLsb' rfl
  have h5 : w.extractLsb' 0 64 = w := BitVec.extractLsb'_eq_self
  unfold joinFields rsv1Field immBits rsv0Field opField
  rw [h]
  exact (congrArg _ ((congrArg _ ((congrArg _ h1).trans h2)).trans h3)).trans (h4.trans h5)

theorem joinFields_inj {r1 r1' : BitVec 32} {i i' : BitVec 16} {r0 r0' : BitVec 7} {f f' : Bool} {o o' : BitVec 8} :
    joinFields r1 i r0 f o = joinFields r1' i' r0' f' o' ↔ r1 = r1' ∧ i = i' ∧ r0 = r0' ∧ f = f' ∧ o = o' := by
  have hb : BitVec.ofBool f = BitVec.ofBool f' ↔ f = f' := by cases f <;> cases f' <;> decide
  rw [joinFields, joinFields, append_inj', append_inj', append_inj', append_inj', hb]

theorem joinFields_and {r1 r1' : BitVec 32} {i i' : BitVec 16} {r0 r0' : BitVec 7} {f f' : Bool} {o o' : BitVec 8} :
    joinFields r1 i r0 f o &&& joinFields r1' i' r0' f' o'
      = joinFields (r1 &&& r1') (i &&& i') (r0 &&& r0') (f && f') (o &&& o') := by
  have hb : BitVec.ofBool f &&& BitVec.ofBool f' = BitVec.ofBool (f && f') := by cases f <;> cases f' <;> decide
  have h1 := BitVec.and_append (x₁ := BitVec.ofBool f) (x₂ := BitVec.ofBool f') (y₁ := o) (y₂ := o')
  have h2 := BitVec.and_append (x₁ := r0) (x₂ := r0') (y₁ := BitVec.ofBool f ++ o) (y₂ := BitVec.ofBool f' ++ o')
  have h3 := BitVec.and_append (x₁ := i) (x₂ := i') (y₁ := r0 ++ (BitVec.ofBool f ++ o))
    (y₂ := r0' ++ (BitVec.ofBool f' ++ o'))
  have h4 := BitVec.and_append (x₁ := r1) (x₂ := r1') (y₁ := i ++ (r0 ++ (BitVec.ofBool f ++ o)))
    (y₂ := i' ++ (r0' ++ (BitVec.ofBool f' ++ o')))
  rw [hb] at h1
  rw [h1] at h2
  rw [h2] at h3
  rw [h3] at h4
  exact h4

section
variable (r1 : BitVec 32) (i : BitVec 16) (r0 : BitVec 7) (f : Bool) (o : BitVec 8)

theorem fields_of_joinFields :
    rsv1Field (joinFields r1 i r0 f o) = r1 ∧ immBits (joinFields r1 i r0 f o) = i
      ∧ rsv0Field (joinFields r1 i r0 f o) = r0 ∧ flagField (joinFields r1 i r0 f o) = f
      ∧ opField (joinFields r1 i r0 f o) = o := by
  have h := joinFields_fields (joinFields r1 i r0 f o)
  rwa [joinFields_inj] at h

@[simp] theorem rsv1Field_joinFields : rsv1Field (joinFields r1 i r0 f o) = r1 := (fields_of_joinFields r1 i r0 f o).1
@[simp] theorem immBits_joinFields : immBits (joinFields r1 i r0 f o) = i := (fields_of_joinFields r1 i r0 f o).2.1
@[simp] theorem rsv0Field_joinFields : rsv0Field (joinFields r1 i r0 f o) = r0 := (fields_of_joinFields r1 i r0 f o).2.2.1
@[simp] theorem flagField_joinFields : flagField (joinFields r1 i r0 f o) = f := (fields_of_joinFields r1 i r0 f o).2.2.2.1
@[simp] theorem opField_joinFields : opField (joinFields r1 i r0 f o) = o := (fields_of_joinFields r1 i r0 f o).2.2.2.2

@[simp] theorem imm16Field_joinFields : imm16Field (joinFields r1 i r0 f o) = i.toNat :=
  congrArg BitVec.toNat (immBits_joinFields r1 i r0 f o)

end

/-! ### Row selection by fields (R84) -/

theorem maskNone_eq : maskNone = joinFields 0xFFFFFFFF 0xFFFF 0x7F true 0xFF := by decide
theorem maskImm16_eq : maskImm16 = joinFields 0xFFFFFFFF 0 0x7F true 0xFF := by decide
theorem maskImm16F_eq : maskImm16F = joinFields 0xFFFFFFFF 0 0x7F false 0xFF := by decide

section
variable (r1 : BitVec 32) (i : BitVec 16) (r0 : BitVec 7) (f : Bool) (o p : BitVec 8)

theorem allOnes_and {n : Nat} (x y : BitVec n) (h : y = BitVec.allOnes n) : x &&& y = x := by
  subst h; simp

/-- No operand: every field but OP is 0. -/
theorem selects_none :
    joinFields r1 i r0 f o &&& maskNone = joinFields 0 0 0 false p ↔ r1 = 0 ∧ i = 0 ∧ r0 = 0 ∧ f = false ∧ o = p := by
  rw [maskNone_eq, joinFields_and, joinFields_inj, allOnes_and r1 _ (by decide), allOnes_and i _ (by decide),
    allOnes_and r0 _ (by decide), allOnes_and o _ (by decide), Bool.and_true]

/-- IMM16 an operand. -/
theorem selects_imm16 :
    joinFields r1 i r0 f o &&& maskImm16 = joinFields 0 0 0 false p ↔ r1 = 0 ∧ r0 = 0 ∧ f = false ∧ o = p := by
  rw [maskImm16_eq, joinFields_and, joinFields_inj, allOnes_and r1 _ (by decide),
    allOnes_and r0 _ (by decide), allOnes_and o _ (by decide), Bool.and_true]
  simp

/-- IMM16 and F operands. -/
theorem selects_imm16F :
    joinFields r1 i r0 f o &&& maskImm16F = joinFields 0 0 0 false p ↔ r1 = 0 ∧ r0 = 0 ∧ o = p := by
  rw [maskImm16F_eq, joinFields_and, joinFields_inj, allOnes_and r1 _ (by decide),
    allOnes_and r0 _ (by decide), allOnes_and o _ (by decide), Bool.and_false]
  simp

end

/-- A small pattern is its opcode in an otherwise zero word. -/
theorem pattern_eq (p : BitVec 8) : p.setWidth 64 = joinFields 0 0 0 false p := by
  rw [← joinFields_fields (p.setWidth 64), joinFields_inj]
  refine ⟨?_, ?_, ?_, ?_, ?_⟩
  all_goals first | (apply BitVec.eq_of_getLsbD_eq; intro i hi) | skip
  all_goals simp [rsv1Field, immBits, rsv0Field, flagField, opField]
  all_goals first | (intros; apply BitVec.getLsbD_of_ge; omega) | (rw [decide_eq_true hi, decide_eq_true (by omega)]; rfl)

theorem commandWord_getLsbD (op : BitVec 8) (imm : Nat) (f : Bool) (j : Nat) (hj : j < 64) :
    (commandWord op imm f).getLsbD j =
      ((decide (16 ≤ j) && imm.testBit (j - 16)) || (decide (j = 8) && f) || op.getLsbD j) := by
  have h8 : (BitVec.ofBool f).getLsbD (j - 8) = (decide (j - 8 = 0) && f) := by
    cases f <;> simp [BitVec.getLsbD_one] 
  unfold commandWord
  simp only [BitVec.getLsbD_or, BitVec.getLsbD_shiftLeft, BitVec.getLsbD_setWidth, BitVec.getLsbD_ofNat, hj, h8]
  by_cases h1 : 16 ≤ j
  · have : ¬ j < 16 := by omega
    have h' : ¬ j = 8 := by omega
    have h'' : ¬ j < 8 := by omega
    have h3 : ¬ (j - 8 = 0) := by omega
    have h4 : j - 16 < 64 := by omega
    simp [h1, this, h', h'', h3, h4]
  · by_cases h2 : j < 8
    · have : ¬ j = 8 := by omega
      have h4 : j < 16 := by omega
      simp [h1, h2, this, h4]
    · have h4 : j < 16 := by omega
      have h5 : j - 8 < 64 := by omega
      have h6 : (j - 8 = 0) ↔ j = 8 := by omega
      simp [h1, h2, h4, h5, h6]

/-- Which word a command's encoding is, by fields (R89). -/
theorem commandWord_eq (op : BitVec 8) (imm : Nat) (f : Bool) (h : imm ≤ 65535) :
    commandWord op imm f = joinFields 0 (BitVec.ofNat 16 imm) 0 f op := by
  have hb : ∀ k, 16 ≤ k → imm.testBit k = false := fun k hk =>
    Nat.testBit_lt_two_pow (lt_of_lt_of_le (show imm < 2 ^ 16 by omega) (Nat.pow_le_pow_right (by omega) hk))
  rw [← joinFields_fields (commandWord op imm f), joinFields_inj]
  refine ⟨?_, ?_, ?_, ?_, ?_⟩
  · apply BitVec.eq_of_getLsbD_eq
    intro i hi
    rw [rsv1Field, BitVec.getLsbD_extractLsb', decide_eq_true hi, Bool.true_and,
      commandWord_getLsbD _ _ _ _ (by omega), hb _ (by omega), BitVec.getLsbD_of_ge op _ (by omega),
      decide_eq_false (by omega : ¬ 32 + i = 8)]
    simp
  · apply BitVec.eq_of_getLsbD_eq
    intro i hi
    rw [immBits, BitVec.getLsbD_extractLsb', decide_eq_true hi, Bool.true_and,
      commandWord_getLsbD _ _ _ _ (by omega), BitVec.getLsbD_of_ge op _ (by omega),
      decide_eq_false (by omega : ¬ 16 + i = 8), BitVec.getLsbD_ofNat]
    simp [hi]
  · apply BitVec.eq_of_getLsbD_eq
    intro i hi
    rw [rsv0Field, BitVec.getLsbD_extractLsb', decide_eq_true hi, Bool.true_and,
      commandWord_getLsbD _ _ _ _ (by omega), BitVec.getLsbD_of_ge op _ (by omega),
      decide_eq_false (by omega : ¬ 9 + i = 8), decide_eq_false (by omega : ¬ 16 ≤ 9 + i)]
    simp
  · rw [flagField, commandWord_getLsbD _ _ _ _ (by omega), BitVec.getLsbD_of_ge op _ (by omega)]
    simp
  · apply BitVec.eq_of_getLsbD_eq
    intro i hi
    rw [opField, BitVec.getLsbD_extractLsb', decide_eq_true hi, Bool.true_and,
      commandWord_getLsbD _ _ _ _ (by omega),
      decide_eq_false (by omega : ¬ 0 + i = 8), decide_eq_false (by omega : ¬ 16 ≤ 0 + i)]
    simp

/-- The rows exclude each other (R84): two rows differ in a bit that both fix. -/
theorem opcodeRows_exclusive :
    opcodeRows.Pairwise fun r q => (r.mask &&& q.mask) &&& (r.pattern ^^^ q.pattern) ≠ 0 := by
  decide

/-- Decoding by fields (R84, R86): a reserved field, then the opcodes with an F operand, with an IMM16 operand, with
none. -/
theorem decodeCommand_joinFields (r1 : BitVec 32) (i : BitVec 16) (r0 : BitVec 7) (f : Bool) (o : BitVec 8) :
    decodeCommand (joinFields r1 i r0 f o) =
      if ¬(r1 = 0 ∧ r0 = 0) then .error .illegalCommand
      else if o = 0x10 then .ok (.ocfg i.toNat f)
      else if f = true then .error .illegalCommand
      else if o = 0x01 then .ok (.iseed i.toNat)
      else if o = 0x03 then .ok (.irandbits i.toNat)
      else if o = 0x0A then .ok (.xrandbits i.toNat)
      else if i ≠ 0 then .error .illegalCommand
      else if o = 0x00 then .ok .nop
      else if o = 0x02 then .ok .inext
      else if o = 0x08 then .ok .xseed
      else if o = 0x09 then .ok .xnext
      else if o = 0x11 then .ok .fermat
      else if o = 0x12 then .ok .millerrabin
      else .error .illegalCommand := by
  have hn : ∀ p : BitVec 8, (joinFields r1 i r0 f o &&& maskNone == joinFields 0 0 0 false p)
      = decide (r1 = 0 ∧ i = 0 ∧ r0 = 0 ∧ f = false ∧ o = p) := fun p => by
    rw [Bool.eq_iff_iff, beq_iff_eq, selects_none, decide_eq_true_iff]
  have hi : ∀ p : BitVec 8, (joinFields r1 i r0 f o &&& maskImm16 == joinFields 0 0 0 false p)
      = decide (r1 = 0 ∧ r0 = 0 ∧ f = false ∧ o = p) := fun p => by
    rw [Bool.eq_iff_iff, beq_iff_eq, selects_imm16, decide_eq_true_iff]
  have hf : ∀ p : BitVec 8, (joinFields r1 i r0 f o &&& maskImm16F == joinFields 0 0 0 false p)
      = decide (r1 = 0 ∧ r0 = 0 ∧ o = p) := fun p => by
    rw [Bool.eq_iff_iff, beq_iff_eq, selects_imm16F, decide_eq_true_iff]
  have e00 : (0x0000000000000000 : Word) = joinFields 0 0 0 false 0x00 := by decide
  have e01 : (0x0000000000000001 : Word) = joinFields 0 0 0 false 0x01 := by decide
  have e02 : (0x0000000000000002 : Word) = joinFields 0 0 0 false 0x02 := by decide
  have e03 : (0x0000000000000003 : Word) = joinFields 0 0 0 false 0x03 := by decide
  have e08 : (0x0000000000000008 : Word) = joinFields 0 0 0 false 0x08 := by decide
  have e09 : (0x0000000000000009 : Word) = joinFields 0 0 0 false 0x09 := by decide
  have e0A : (0x000000000000000A : Word) = joinFields 0 0 0 false 0x0A := by decide
  have e10 : (0x0000000000000010 : Word) = joinFields 0 0 0 false 0x10 := by decide
  have e11 : (0x0000000000000011 : Word) = joinFields 0 0 0 false 0x11 := by decide
  have e12 : (0x0000000000000012 : Word) = joinFields 0 0 0 false 0x12 := by decide
  unfold decodeCommand opcodeRows
  simp only [List.find?_cons, List.find?_nil, Row.selects, e00, e01, e02, e03, e08, e09, e0A, e10, e11, e12, hn, hi, hf]
  by_cases h1 : r1 = 0#32
  on_goal 2 => simp [h1]
  by_cases h0 : r0 = 0#7
  on_goal 2 => simp [h0]
  subst h1 h0
  by_cases h10 : o = 0x10#8
  · subst h10; cases f <;> simp
  by_cases hff : f = true
  · subst hff; simp [h10]
  obtain rfl : f = false := by simpa using hff
  by_cases h01 : o = 0x01#8
  · subst h01; simp
  by_cases h03 : o = 0x03#8
  · subst h03; simp
  by_cases h0A : o = 0x0A#8
  · subst h0A; simp
  by_cases hz : i = 0#16
  on_goal 2 => simp [h10, h01, h03, h0A, hz]
  subst hz
  by_cases h00 : o = 0x00#8
  · subst h00; simp
  by_cases h02 : o = 0x02#8
  · subst h02; simp
  by_cases h08 : o = 0x08#8
  · subst h08; simp
  by_cases h09 : o = 0x09#8
  · subst h09; simp
  by_cases h11 : o = 0x11#8
  · subst h11; simp
  by_cases h12 : o = 0x12#8
  · subst h12; simp
  simp [h00, h01, h02, h03, h08, h09, h0A, h10, h11, h12]

/-! ### Records by fields (R88) -/

theorem recordOf_getLsbD (write : Bool) (a : HAddr) (d : Word) (j : Nat) :
    (recordOf write a d).getLsbD j =
      if j < 64 then d.getLsbD j else if j < 75 then a.getLsbD (j - 64) else (decide (j = 75) && write) := by
  have h0 : (BitVec.ofBool write).getLsbD (j - 75) = (decide (j - 75 = 0) && write) := by
    cases write <;> simp [BitVec.getLsbD_one]
  unfold recordOf
  simp only [BitVec.getLsbD_append, h0]
  by_cases h1 : j < 75
  · by_cases h2 : j < 64
    · simp [h1, h2]
    · simp [h1, h2]
  · have h2 : ¬ j < 64 := by omega
    have h3 : (j - 75 = 0) ↔ j = 75 := by omega
    simp [h1, h2, h3]

theorem fields_of_recordOf (write : Bool) (a : HAddr) (d : Word) :
    txnWrite (recordOf write a d) = write ∧ txnAddr (recordOf write a d) = a ∧ txnData (recordOf write a d) = d := by
  refine ⟨?_, ?_, ?_⟩
  · rw [txnWrite, recordOf_getLsbD]; simp
  · apply BitVec.eq_of_getLsbD_eq
    intro i hi
    rw [txnAddr, BitVec.getLsbD_extractLsb', recordOf_getLsbD, if_neg (by omega), if_pos (by omega)]
    simp [hi]
  · apply BitVec.eq_of_getLsbD_eq
    intro i hi
    rw [txnData, BitVec.getLsbD_extractLsb', recordOf_getLsbD, if_pos (by omega)]
    simp [hi]

theorem record_fields (r : Record) : recordOf (txnWrite r) (txnAddr r) (txnData r) = r := by
  apply BitVec.eq_of_getLsbD_eq
  intro i hi
  unfold recordOf txnWrite txnAddr txnData
  simp only [BitVec.getLsbD_append, BitVec.getLsbD_extractLsb']
  by_cases h1 : i < 75
  · by_cases h2 : i < 64
    · simp [h1, h2]
    · have h3 : i - 64 < 11 := by omega
      have h4 : 64 + (i - 64) = i := by omega
      simp [h1, h2, h3, h4]
  · obtain rfl : i = 75 := by omega
    simp

end Sys2Proof
end

