-- ==== Sys2Proof/Laws/State.lean ====
section
/-! SUPPORT. What each field is after each update: one lemma per field per update. -/

namespace Sys2Proof.Machine

section
variable (s : State) (v : Status)
@[simp] theorem State.setStatus_limbs : (s.setStatus v).limbs = s.limbs := rfl
@[simp] theorem State.setStatus_status : (s.setStatus v).status = v := rfl
@[simp] theorem State.setStatus_pend : (s.setStatus v).pend = s.pend := rfl
@[simp] theorem State.setStatus_arg0 : (s.setStatus v).arg0 = s.arg0 := rfl
@[simp] theorem State.setStatus_arg1 : (s.setStatus v).arg1 = s.arg1 := rfl
@[simp] theorem State.setStatus_res : (s.setStatus v).res = s.res := rfl
@[simp] theorem State.setStatus_seed : (s.setStatus v).seed = s.seed := rfl
@[simp] theorem State.setStatus_num : (s.setStatus v).num = s.num := rfl
@[simp] theorem State.setStatus_big : (s.setStatus v).big = s.big := rfl
@[simp] theorem State.setStatus_isaac : (s.setStatus v).isaac = s.isaac := rfl
@[simp] theorem State.setStatus_xs : (s.setStatus v).xs = s.xs := rfl
@[simp] theorem State.setStatus_oracle : (s.setStatus v).oracle = s.oracle := rfl
@[simp] theorem State.setStatus_env : (s.setStatus v).env = s.env := rfl
end

section
variable (s : State) (v : Word)
@[simp] theorem State.setPend_limbs : (s.setPend v).limbs = s.limbs := rfl
@[simp] theorem State.setPend_status : (s.setPend v).status = s.status := rfl
@[simp] theorem State.setPend_pend : (s.setPend v).pend = v := rfl
@[simp] theorem State.setPend_arg0 : (s.setPend v).arg0 = s.arg0 := rfl
@[simp] theorem State.setPend_arg1 : (s.setPend v).arg1 = s.arg1 := rfl
@[simp] theorem State.setPend_res : (s.setPend v).res = s.res := rfl
@[simp] theorem State.setPend_seed : (s.setPend v).seed = s.seed := rfl
@[simp] theorem State.setPend_num : (s.setPend v).num = s.num := rfl
@[simp] theorem State.setPend_big : (s.setPend v).big = s.big := rfl
@[simp] theorem State.setPend_isaac : (s.setPend v).isaac = s.isaac := rfl
@[simp] theorem State.setPend_xs : (s.setPend v).xs = s.xs := rfl
@[simp] theorem State.setPend_oracle : (s.setPend v).oracle = s.oracle := rfl
@[simp] theorem State.setPend_env : (s.setPend v).env = s.env := rfl
end

section
variable (s : State) (v : Word)
@[simp] theorem State.setArg0_limbs : (s.setArg0 v).limbs = s.limbs := rfl
@[simp] theorem State.setArg0_status : (s.setArg0 v).status = s.status := rfl
@[simp] theorem State.setArg0_pend : (s.setArg0 v).pend = s.pend := rfl
@[simp] theorem State.setArg0_arg0 : (s.setArg0 v).arg0 = v := rfl
@[simp] theorem State.setArg0_arg1 : (s.setArg0 v).arg1 = s.arg1 := rfl
@[simp] theorem State.setArg0_res : (s.setArg0 v).res = s.res := rfl
@[simp] theorem State.setArg0_seed : (s.setArg0 v).seed = s.seed := rfl
@[simp] theorem State.setArg0_num : (s.setArg0 v).num = s.num := rfl
@[simp] theorem State.setArg0_big : (s.setArg0 v).big = s.big := rfl
@[simp] theorem State.setArg0_isaac : (s.setArg0 v).isaac = s.isaac := rfl
@[simp] theorem State.setArg0_xs : (s.setArg0 v).xs = s.xs := rfl
@[simp] theorem State.setArg0_oracle : (s.setArg0 v).oracle = s.oracle := rfl
@[simp] theorem State.setArg0_env : (s.setArg0 v).env = s.env := rfl
end

section
variable (s : State) (v : Word)
@[simp] theorem State.setArg1_limbs : (s.setArg1 v).limbs = s.limbs := rfl
@[simp] theorem State.setArg1_status : (s.setArg1 v).status = s.status := rfl
@[simp] theorem State.setArg1_pend : (s.setArg1 v).pend = s.pend := rfl
@[simp] theorem State.setArg1_arg0 : (s.setArg1 v).arg0 = s.arg0 := rfl
@[simp] theorem State.setArg1_arg1 : (s.setArg1 v).arg1 = v := rfl
@[simp] theorem State.setArg1_res : (s.setArg1 v).res = s.res := rfl
@[simp] theorem State.setArg1_seed : (s.setArg1 v).seed = s.seed := rfl
@[simp] theorem State.setArg1_num : (s.setArg1 v).num = s.num := rfl
@[simp] theorem State.setArg1_big : (s.setArg1 v).big = s.big := rfl
@[simp] theorem State.setArg1_isaac : (s.setArg1 v).isaac = s.isaac := rfl
@[simp] theorem State.setArg1_xs : (s.setArg1 v).xs = s.xs := rfl
@[simp] theorem State.setArg1_oracle : (s.setArg1 v).oracle = s.oracle := rfl
@[simp] theorem State.setArg1_env : (s.setArg1 v).env = s.env := rfl
end

section
variable (s : State) (v : Word)
@[simp] theorem State.setRes_limbs : (s.setRes v).limbs = s.limbs := rfl
@[simp] theorem State.setRes_status : (s.setRes v).status = s.status := rfl
@[simp] theorem State.setRes_pend : (s.setRes v).pend = s.pend := rfl
@[simp] theorem State.setRes_arg0 : (s.setRes v).arg0 = s.arg0 := rfl
@[simp] theorem State.setRes_arg1 : (s.setRes v).arg1 = s.arg1 := rfl
@[simp] theorem State.setRes_res : (s.setRes v).res = v := rfl
@[simp] theorem State.setRes_seed : (s.setRes v).seed = s.seed := rfl
@[simp] theorem State.setRes_num : (s.setRes v).num = s.num := rfl
@[simp] theorem State.setRes_big : (s.setRes v).big = s.big := rfl
@[simp] theorem State.setRes_isaac : (s.setRes v).isaac = s.isaac := rfl
@[simp] theorem State.setRes_xs : (s.setRes v).xs = s.xs := rfl
@[simp] theorem State.setRes_oracle : (s.setRes v).oracle = s.oracle := rfl
@[simp] theorem State.setRes_env : (s.setRes v).env = s.env := rfl
end

section
variable (s : State) (v : Pool)
@[simp] theorem State.setSeed_limbs : (s.setSeed v).limbs = s.limbs := rfl
@[simp] theorem State.setSeed_status : (s.setSeed v).status = s.status := rfl
@[simp] theorem State.setSeed_pend : (s.setSeed v).pend = s.pend := rfl
@[simp] theorem State.setSeed_arg0 : (s.setSeed v).arg0 = s.arg0 := rfl
@[simp] theorem State.setSeed_arg1 : (s.setSeed v).arg1 = s.arg1 := rfl
@[simp] theorem State.setSeed_res : (s.setSeed v).res = s.res := rfl
@[simp] theorem State.setSeed_seed : (s.setSeed v).seed = v := rfl
@[simp] theorem State.setSeed_num : (s.setSeed v).num = s.num := rfl
@[simp] theorem State.setSeed_big : (s.setSeed v).big = s.big := rfl
@[simp] theorem State.setSeed_isaac : (s.setSeed v).isaac = s.isaac := rfl
@[simp] theorem State.setSeed_xs : (s.setSeed v).xs = s.xs := rfl
@[simp] theorem State.setSeed_oracle : (s.setSeed v).oracle = s.oracle := rfl
@[simp] theorem State.setSeed_env : (s.setSeed v).env = s.env := rfl
end

section
variable (s : State) (v : List Word)
@[simp] theorem State.setNum_limbs : (s.setNum v).limbs = s.limbs := rfl
@[simp] theorem State.setNum_status : (s.setNum v).status = s.status := rfl
@[simp] theorem State.setNum_pend : (s.setNum v).pend = s.pend := rfl
@[simp] theorem State.setNum_arg0 : (s.setNum v).arg0 = s.arg0 := rfl
@[simp] theorem State.setNum_arg1 : (s.setNum v).arg1 = s.arg1 := rfl
@[simp] theorem State.setNum_res : (s.setNum v).res = s.res := rfl
@[simp] theorem State.setNum_seed : (s.setNum v).seed = s.seed := rfl
@[simp] theorem State.setNum_num : (s.setNum v).num = v := rfl
@[simp] theorem State.setNum_big : (s.setNum v).big = s.big := rfl
@[simp] theorem State.setNum_isaac : (s.setNum v).isaac = s.isaac := rfl
@[simp] theorem State.setNum_xs : (s.setNum v).xs = s.xs := rfl
@[simp] theorem State.setNum_oracle : (s.setNum v).oracle = s.oracle := rfl
@[simp] theorem State.setNum_env : (s.setNum v).env = s.env := rfl
end

section
variable (s : State) (v : List Word)
@[simp] theorem State.setBig_limbs : (s.setBig v).limbs = s.limbs := rfl
@[simp] theorem State.setBig_status : (s.setBig v).status = s.status := rfl
@[simp] theorem State.setBig_pend : (s.setBig v).pend = s.pend := rfl
@[simp] theorem State.setBig_arg0 : (s.setBig v).arg0 = s.arg0 := rfl
@[simp] theorem State.setBig_arg1 : (s.setBig v).arg1 = s.arg1 := rfl
@[simp] theorem State.setBig_res : (s.setBig v).res = s.res := rfl
@[simp] theorem State.setBig_seed : (s.setBig v).seed = s.seed := rfl
@[simp] theorem State.setBig_num : (s.setBig v).num = s.num := rfl
@[simp] theorem State.setBig_big : (s.setBig v).big = v := rfl
@[simp] theorem State.setBig_isaac : (s.setBig v).isaac = s.isaac := rfl
@[simp] theorem State.setBig_xs : (s.setBig v).xs = s.xs := rfl
@[simp] theorem State.setBig_oracle : (s.setBig v).oracle = s.oracle := rfl
@[simp] theorem State.setBig_env : (s.setBig v).env = s.env := rfl
end

section
variable (s : State) (v : Isaac)
@[simp] theorem State.setIsaac_limbs : (s.setIsaac v).limbs = s.limbs := rfl
@[simp] theorem State.setIsaac_status : (s.setIsaac v).status = s.status := rfl
@[simp] theorem State.setIsaac_pend : (s.setIsaac v).pend = s.pend := rfl
@[simp] theorem State.setIsaac_arg0 : (s.setIsaac v).arg0 = s.arg0 := rfl
@[simp] theorem State.setIsaac_arg1 : (s.setIsaac v).arg1 = s.arg1 := rfl
@[simp] theorem State.setIsaac_res : (s.setIsaac v).res = s.res := rfl
@[simp] theorem State.setIsaac_seed : (s.setIsaac v).seed = s.seed := rfl
@[simp] theorem State.setIsaac_num : (s.setIsaac v).num = s.num := rfl
@[simp] theorem State.setIsaac_big : (s.setIsaac v).big = s.big := rfl
@[simp] theorem State.setIsaac_isaac : (s.setIsaac v).isaac = v := rfl
@[simp] theorem State.setIsaac_xs : (s.setIsaac v).xs = s.xs := rfl
@[simp] theorem State.setIsaac_oracle : (s.setIsaac v).oracle = s.oracle := rfl
@[simp] theorem State.setIsaac_env : (s.setIsaac v).env = s.env := rfl
end

section
variable (s : State) (v : Xorshift)
@[simp] theorem State.setXs_limbs : (s.setXs v).limbs = s.limbs := rfl
@[simp] theorem State.setXs_status : (s.setXs v).status = s.status := rfl
@[simp] theorem State.setXs_pend : (s.setXs v).pend = s.pend := rfl
@[simp] theorem State.setXs_arg0 : (s.setXs v).arg0 = s.arg0 := rfl
@[simp] theorem State.setXs_arg1 : (s.setXs v).arg1 = s.arg1 := rfl
@[simp] theorem State.setXs_res : (s.setXs v).res = s.res := rfl
@[simp] theorem State.setXs_seed : (s.setXs v).seed = s.seed := rfl
@[simp] theorem State.setXs_num : (s.setXs v).num = s.num := rfl
@[simp] theorem State.setXs_big : (s.setXs v).big = s.big := rfl
@[simp] theorem State.setXs_isaac : (s.setXs v).isaac = s.isaac := rfl
@[simp] theorem State.setXs_xs : (s.setXs v).xs = v := rfl
@[simp] theorem State.setXs_oracle : (s.setXs v).oracle = s.oracle := rfl
@[simp] theorem State.setXs_env : (s.setXs v).env = s.env := rfl
end

section
variable (s : State) (v : Oracle)
@[simp] theorem State.setOracle_limbs : (s.setOracle v).limbs = s.limbs := rfl
@[simp] theorem State.setOracle_status : (s.setOracle v).status = s.status := rfl
@[simp] theorem State.setOracle_pend : (s.setOracle v).pend = s.pend := rfl
@[simp] theorem State.setOracle_arg0 : (s.setOracle v).arg0 = s.arg0 := rfl
@[simp] theorem State.setOracle_arg1 : (s.setOracle v).arg1 = s.arg1 := rfl
@[simp] theorem State.setOracle_res : (s.setOracle v).res = s.res := rfl
@[simp] theorem State.setOracle_seed : (s.setOracle v).seed = s.seed := rfl
@[simp] theorem State.setOracle_num : (s.setOracle v).num = s.num := rfl
@[simp] theorem State.setOracle_big : (s.setOracle v).big = s.big := rfl
@[simp] theorem State.setOracle_isaac : (s.setOracle v).isaac = s.isaac := rfl
@[simp] theorem State.setOracle_xs : (s.setOracle v).xs = s.xs := rfl
@[simp] theorem State.setOracle_oracle : (s.setOracle v).oracle = v := rfl
@[simp] theorem State.setOracle_env : (s.setOracle v).env = s.env := rfl
end

section
variable (s : State) (v : Env)
@[simp] theorem State.setEnv_limbs : (s.setEnv v).limbs = s.limbs := rfl
@[simp] theorem State.setEnv_status : (s.setEnv v).status = s.status := rfl
@[simp] theorem State.setEnv_pend : (s.setEnv v).pend = s.pend := rfl
@[simp] theorem State.setEnv_arg0 : (s.setEnv v).arg0 = s.arg0 := rfl
@[simp] theorem State.setEnv_arg1 : (s.setEnv v).arg1 = s.arg1 := rfl
@[simp] theorem State.setEnv_res : (s.setEnv v).res = s.res := rfl
@[simp] theorem State.setEnv_seed : (s.setEnv v).seed = s.seed := rfl
@[simp] theorem State.setEnv_num : (s.setEnv v).num = s.num := rfl
@[simp] theorem State.setEnv_big : (s.setEnv v).big = s.big := rfl
@[simp] theorem State.setEnv_isaac : (s.setEnv v).isaac = s.isaac := rfl
@[simp] theorem State.setEnv_xs : (s.setEnv v).xs = s.xs := rfl
@[simp] theorem State.setEnv_oracle : (s.setEnv v).oracle = s.oracle := rfl
@[simp] theorem State.setEnv_env : (s.setEnv v).env = v := rfl
end

section
variable (st : Status)
@[simp] theorem Status.setErr_busy (c : ErrCode) : (st.setErr c).busy = st.busy := rfl
@[simp] theorem Status.setErr_err (c : ErrCode) : (st.setErr c).err = c := rfl
@[simp] theorem Status.setErr_ovr (c : ErrCode) : (st.setErr c).ovr = st.ovr := rfl
@[simp] theorem Status.setErr_badaddr (c : ErrCode) : (st.setErr c).badaddr = st.badaddr := rfl
@[simp] theorem Status.setErr_iseeded (c : ErrCode) : (st.setErr c).iseeded = st.iseeded := rfl
@[simp] theorem Status.setErr_xseeded (c : ErrCode) : (st.setErr c).xseeded = st.xseeded := rfl
@[simp] theorem Status.setBusy_busy (b : Bool) : (st.setBusy b).busy = b := rfl
@[simp] theorem Status.setBusy_err (b : Bool) : (st.setBusy b).err = st.err := rfl
@[simp] theorem Status.setBusy_ovr (b : Bool) : (st.setBusy b).ovr = st.ovr := rfl
@[simp] theorem Status.setBusy_badaddr (b : Bool) : (st.setBusy b).badaddr = st.badaddr := rfl
@[simp] theorem Status.setBusy_iseeded (b : Bool) : (st.setBusy b).iseeded = st.iseeded := rfl
@[simp] theorem Status.setBusy_xseeded (b : Bool) : (st.setBusy b).xseeded = st.xseeded := rfl
@[simp] theorem Status.setOvr_busy  : (st.setOvr).busy = st.busy := rfl
@[simp] theorem Status.setOvr_err  : (st.setOvr).err = st.err := rfl
@[simp] theorem Status.setOvr_ovr  : (st.setOvr).ovr = true := rfl
@[simp] theorem Status.setOvr_badaddr  : (st.setOvr).badaddr = st.badaddr := rfl
@[simp] theorem Status.setOvr_iseeded  : (st.setOvr).iseeded = st.iseeded := rfl
@[simp] theorem Status.setOvr_xseeded  : (st.setOvr).xseeded = st.xseeded := rfl
@[simp] theorem Status.setBadaddr_busy  : (st.setBadaddr).busy = st.busy := rfl
@[simp] theorem Status.setBadaddr_err  : (st.setBadaddr).err = st.err := rfl
@[simp] theorem Status.setBadaddr_ovr  : (st.setBadaddr).ovr = st.ovr := rfl
@[simp] theorem Status.setBadaddr_badaddr  : (st.setBadaddr).badaddr = true := rfl
@[simp] theorem Status.setBadaddr_iseeded  : (st.setBadaddr).iseeded = st.iseeded := rfl
@[simp] theorem Status.setBadaddr_xseeded  : (st.setBadaddr).xseeded = st.xseeded := rfl
@[simp] theorem Status.setIseeded_busy  : (st.setIseeded).busy = st.busy := rfl
@[simp] theorem Status.setIseeded_err  : (st.setIseeded).err = st.err := rfl
@[simp] theorem Status.setIseeded_ovr  : (st.setIseeded).ovr = st.ovr := rfl
@[simp] theorem Status.setIseeded_badaddr  : (st.setIseeded).badaddr = st.badaddr := rfl
@[simp] theorem Status.setIseeded_iseeded  : (st.setIseeded).iseeded = true := rfl
@[simp] theorem Status.setIseeded_xseeded  : (st.setIseeded).xseeded = st.xseeded := rfl
@[simp] theorem Status.setXseeded_busy  : (st.setXseeded).busy = st.busy := rfl
@[simp] theorem Status.setXseeded_err  : (st.setXseeded).err = st.err := rfl
@[simp] theorem Status.setXseeded_ovr  : (st.setXseeded).ovr = st.ovr := rfl
@[simp] theorem Status.setXseeded_badaddr  : (st.setXseeded).badaddr = st.badaddr := rfl
@[simp] theorem Status.setXseeded_iseeded  : (st.setXseeded).iseeded = st.iseeded := rfl
@[simp] theorem Status.setXseeded_xseeded  : (st.setXseeded).xseeded = true := rfl
@[simp] theorem Status.writeOneToClear_busy (v : Word) : (st.writeOneToClear v).busy = st.busy := rfl
@[simp] theorem Status.writeOneToClear_err (v : Word) : (st.writeOneToClear v).err = st.err := rfl
@[simp] theorem Status.writeOneToClear_ovr (v : Word) : (st.writeOneToClear v).ovr = (st.ovr && !v.getLsbD 8) := rfl
@[simp] theorem Status.writeOneToClear_badaddr (v : Word) : (st.writeOneToClear v).badaddr = (st.badaddr && !v.getLsbD 9) := rfl
@[simp] theorem Status.writeOneToClear_iseeded (v : Word) : (st.writeOneToClear v).iseeded = st.iseeded := rfl
@[simp] theorem Status.writeOneToClear_xseeded (v : Word) : (st.writeOneToClear v).xseeded = st.xseeded := rfl
end

section
variable (s : State)
@[simp] theorem State.setInputs_env (is : List Input) : (s.setInputs is).env = { s.env with inputs := is } := rfl
@[simp] theorem State.setInputs_status (is : List Input) : (s.setInputs is).status = s.status := rfl
@[simp] theorem State.setInputs_pend (is : List Input) : (s.setInputs is).pend = s.pend := rfl
@[simp] theorem State.setInputs_limbs (is : List Input) : (s.setInputs is).limbs = s.limbs := rfl
@[simp] theorem State.setInputs_arg0 (is : List Input) : (s.setInputs is).arg0 = s.arg0 := rfl
@[simp] theorem State.setInputs_arg1 (is : List Input) : (s.setInputs is).arg1 = s.arg1 := rfl
@[simp] theorem State.setInputs_res (is : List Input) : (s.setInputs is).res = s.res := rfl
@[simp] theorem State.setInputs_seed (is : List Input) : (s.setInputs is).seed = s.seed := rfl
@[simp] theorem State.setInputs_num (is : List Input) : (s.setInputs is).num = s.num := rfl
@[simp] theorem State.setInputs_big (is : List Input) : (s.setInputs is).big = s.big := rfl
@[simp] theorem State.setInputs_isaac (is : List Input) : (s.setInputs is).isaac = s.isaac := rfl
@[simp] theorem State.setInputs_xs (is : List Input) : (s.setInputs is).xs = s.xs := rfl
@[simp] theorem State.setInputs_oracle (is : List Input) : (s.setInputs is).oracle = s.oracle := rfl
end

/-! Ending a command (R200, R76): BUSY and PEND change, and one `Config.any` number is used. -/
section
variable (s : State)
@[simp] theorem release_limbs : (release s).limbs = s.limbs := rfl
@[simp] theorem release_status : (release s).status = s.status.setBusy false := rfl
@[simp] theorem release_pend : (release s).pend = Config.any s.env.anyDraws := rfl
@[simp] theorem release_arg0 : (release s).arg0 = s.arg0 := rfl
@[simp] theorem release_arg1 : (release s).arg1 = s.arg1 := rfl
@[simp] theorem release_res : (release s).res = s.res := rfl
@[simp] theorem release_seed : (release s).seed = s.seed := rfl
@[simp] theorem release_num : (release s).num = s.num := rfl
@[simp] theorem release_big : (release s).big = s.big := rfl
@[simp] theorem release_isaac : (release s).isaac = s.isaac := rfl
@[simp] theorem release_xs : (release s).xs = s.xs := rfl
@[simp] theorem release_oracle : (release s).oracle = s.oracle := rfl
@[simp] theorem release_env : (release s).env = { s.env with anyDraws := s.env.anyDraws + 1 } := rfl
end

end Sys2Proof.Machine
end

