-- ==== Sys2Proof/Laws/Pool.lean ====
section
/-! SUPPORT. Register arrays: reading after writing, and the word lists of NUM and BIG. -/

namespace Sys2Proof.Machine

theorem Pool.ext8 {p q : Pool} (h : ∀ i : BitVec 8, p.get8 i = q.get8 i) : p = q := by
  apply Vector.ext
  intro i hi
  have := h (BitVec.ofNat 8 i)
  simpa [Pool.get8, Nat.mod_eq_of_lt hi] using this

@[simp] theorem Pool.get8_set8 (p : Pool) (i j : BitVec 8) (v : Word) :
    (p.set8 i v).get8 j = if j = i then v else p.get8 j := by
  unfold Pool.get8 Pool.set8
  rw [Vector.getElem_set]
  by_cases h : j = i
  · subst h; simp
  · rw [if_neg (fun e => h (BitVec.eq_of_toNat_eq e.symm)), if_neg h]

@[simp] theorem Pool.get8_ofFn (f : Nat → Word) (i : BitVec 8) : (Pool.ofFn f).get8 i = f i.toNat := by
  simp [Pool.get8, Pool.ofFn]

@[simp] theorem toLimbs_length (limbs v : Nat) : (toLimbs limbs v).length = limbs := by
  induction limbs generalizing v with
  | zero => rfl
  | succ n ih => simp [toLimbs, ih]

theorem toLimbs_getElem? (limbs v i : Nat) (h : i < limbs) :
    (toLimbs limbs v)[i]? = some (BitVec.ofNat 64 (v / 2 ^ (64 * i))) := by
  induction limbs generalizing v i with
  | zero => omega
  | succ n ih =>
    cases i with
    | zero => simp [toLimbs]
    | succ i =>
      rw [toLimbs, List.getElem?_cons_succ, ih _ _ (by omega), Nat.div_div_eq_div_mul, ← Nat.pow_add,
        show 64 + 64 * i = 64 * (i + 1) by omega]

/-- R11, R153: an integer of at most `64 * limbs` bits survives in its limbs. -/
theorem bigval_toLimbs (limbs v : Nat) (h : v < 2 ^ (64 * limbs)) : bigval (toLimbs limbs v) = v := by
  induction limbs generalizing v with
  | zero => simp at h; simp [toLimbs, bigval, h]
  | succ n ih =>
    have h' : v / 2 ^ 64 < 2 ^ (64 * n) := by
      rw [Nat.div_lt_iff_lt_mul (by positivity), ← Nat.pow_add]
      exact lt_of_lt_of_eq h (by congr 1)
    rw [toLimbs, bigval, ih _ h', BitVec.toNat_ofNat]
    omega

theorem bigval_lt (ws : List Word) : bigval ws < 2 ^ (64 * ws.length) := by
  induction ws with
  | nil => simp [bigval]
  | cons w ws ih =>
    have hw := w.isLt
    have h64 := Nat.mul_le_mul_left (2 ^ 64) (Nat.succ_le_of_lt ih)
    rw [bigval, List.length_cons, Nat.mul_add, Nat.pow_add, Nat.mul_one]
    generalize 2 ^ (64 * ws.length) = p at h64 ⊢
    omega

end Sys2Proof.Machine
end

