-- ==== Sys2Proof/Laws/HostAccess.lean ====
section
/-! SUPPORT. The host's accesses: the map at named addresses, and everything an access can do. -/

namespace Sys2Proof.Machine

theorem setWidth8_toNat (a : HAddr) : (a.setWidth 8).toNat = a.toNat % 256 := by simp

/-- The map by pages of 256 addresses (R61). -/
theorem hregAt_low {limbs : Nat} {a : HAddr} (h : a.toNat < 256) : hregAt limbs a = lowReg a.toNat := by
  have h0 : a.toNat / 256 = 0 := by omega
  simp only [hregAt, h0, setWidth8_toNat, Nat.mod_eq_of_lt h]

theorem addr_of_page {a : HAddr} (i : BitVec 8) (p : Nat) (h : a.toNat = 256 * p + i.toNat) :
    a.toNat / 256 = p ∧ a.setWidth 8 = i := by
  have hi := i.isLt
  refine ⟨by omega, BitVec.eq_of_toNat_eq ?_⟩
  rw [setWidth8_toNat]; omega

/-- Every address lies in one page. -/
theorem addr_page (a : HAddr) : ∃ (p : Nat) (i : BitVec 8), p < 8 ∧ a.toNat = 256 * p + i.toNat := by
  have ha : a.toNat < 2048 := a.isLt
  exact ⟨a.toNat / 256, a.setWidth 8, by omega, by rw [setWidth8_toNat]; omega⟩

theorem hregAt_mm {limbs : Nat} {a : HAddr} (i : BitVec 8) (h : a.toNat = 0x100 + i.toNat) :
    hregAt limbs a = some (.mm i) := by
  obtain ⟨h1, h2⟩ := addr_of_page i 1 h
  simp only [hregAt, h1, h2]

theorem hregAt_rsl {limbs : Nat} {a : HAddr} (i : BitVec 8) (h : a.toNat = 0x200 + i.toNat) :
    hregAt limbs a = some (.rsl i) := by
  obtain ⟨h1, h2⟩ := addr_of_page i 2 h
  simp only [hregAt, h1, h2]

theorem hregAt_seed {limbs : Nat} {a : HAddr} (i : BitVec 8) (h : a.toNat = 0x300 + i.toNat) :
    hregAt limbs a = some (.seed i) := by
  obtain ⟨h1, h2⟩ := addr_of_page i 3 h
  simp only [hregAt, h1, h2]

theorem hregAt_num {limbs : Nat} {a : HAddr} (i : BitVec 8) (h : a.toNat = 0x400 + i.toNat) :
    hregAt limbs a = if i.toNat < limbs then some (.num i.toNat) else none := by
  obtain ⟨h1, h2⟩ := addr_of_page i 4 h
  simp only [hregAt, h1, h2]

theorem hregAt_big {limbs : Nat} {a : HAddr} (i : BitVec 8) (h : a.toNat = 0x500 + i.toNat) :
    hregAt limbs a = if i.toNat < limbs then some (.big i.toNat) else none := by
  obtain ⟨h1, h2⟩ := addr_of_page i 5 h
  simp only [hregAt, h1, h2]

theorem hregAt_high {limbs : Nat} {a : HAddr} (h : 0x600 ≤ a.toNat) : hregAt limbs a = none := by
  have ha : a.toNat < 2048 := a.isLt
  have h1 : a.toNat / 256 = 6 ∨ a.toNat / 256 = 7 := by omega
  rcases h1 with h1 | h1 <;> simp only [hregAt, h1]

/-- The low page: exactly the addresses 0 to 13 name registers (R61). -/
theorem lowReg_none {n : Nat} (h : 14 ≤ n) : lowReg n = none := by
  unfold lowReg
  split <;> first | rfl | omega

/-- What an address that names `r` is, page by page. -/
theorem hregAt_inv {limbs : Nat} {a : HAddr} {r : HReg} (h : hregAt limbs a = some r) :
    (a.toNat < 14 ∧ lowReg a.toNat = some r)
      ∨ ∃ i : BitVec 8, (a.toNat = 0x100 + i.toNat ∧ r = .mm i) ∨ (a.toNat = 0x200 + i.toNat ∧ r = .rsl i)
        ∨ (a.toNat = 0x300 + i.toNat ∧ r = .seed i)
        ∨ (a.toNat = 0x400 + i.toNat ∧ i.toNat < limbs ∧ r = .num i.toNat)
        ∨ (a.toNat = 0x500 + i.toNat ∧ i.toNat < limbs ∧ r = .big i.toNat) := by
  obtain ⟨p, i, hp, ha⟩ := addr_page a
  have hi := i.isLt
  obtain rfl | rfl | rfl | rfl | rfl | rfl | hp6 :
      p = 0 ∨ p = 1 ∨ p = 2 ∨ p = 3 ∨ p = 4 ∨ p = 5 ∨ 6 ≤ p := by omega
  · rw [hregAt_low (by omega)] at h
    refine .inl ⟨?_, h⟩
    by_contra hn
    rw [lowReg_none (by omega)] at h
    cases h
  · rw [hregAt_mm i ha] at h; cases h; exact .inr ⟨i, .inl ⟨ha, rfl⟩⟩
  · rw [hregAt_rsl i ha] at h; cases h; exact .inr ⟨i, .inr (.inl ⟨ha, rfl⟩)⟩
  · rw [hregAt_seed i ha] at h; cases h; exact .inr ⟨i, .inr (.inr (.inl ⟨ha, rfl⟩))⟩
  · rw [hregAt_num i ha] at h
    split at h <;> cases h
    exact .inr ⟨i, .inr (.inr (.inr (.inl ⟨ha, ‹_›, rfl⟩)))⟩
  · rw [hregAt_big i ha] at h
    split at h <;> cases h
    exact .inr ⟨i, .inr (.inr (.inr (.inr ⟨ha, ‹_›, rfl⟩)))⟩
  · rw [hregAt_high (by omega)] at h; cases h

theorem lowReg_status {n : Nat} : lowReg n = some .status ↔ n = 2 := by
  constructor
  · intro h; unfold lowReg at h; split at h <;> first | rfl | cases h
  · rintro rfl; rfl

theorem lowReg_cmd {n : Nat} : lowReg n = some .cmd ↔ n = 1 := by
  constructor
  · intro h; unfold lowReg at h; split at h <;> first | rfl | cases h
  · rintro rfl; rfl

/-- 0x002 is STATUS's only address (R61). -/
theorem hregAt_eq_status {limbs : Nat} {a : HAddr} : hregAt limbs a = some .status ↔ a = 0x002 := by
  constructor
  · intro h
    rcases hregAt_inv h with ⟨-, h⟩ | ⟨i, h⟩
    · exact BitVec.eq_of_toNat_eq (lowReg_status.1 h)
    · simp at h
  · rintro rfl; rfl

/-- 0x001 is CMD's only address (R61). -/
theorem hregAt_eq_cmd {limbs : Nat} {a : HAddr} : hregAt limbs a = some .cmd ↔ a = 0x001 := by
  constructor
  · intro h
    rcases hregAt_inv h with ⟨-, h⟩ | ⟨i, h⟩
    · exact BitVec.eq_of_toNat_eq (lowReg_cmd.1 h)
    · simp at h
  · rintro rfl; rfl

/-- Everything HWR can do (R64): one of four, by the register at the address and BUSY. -/
theorem execHwr_cases (a : HAddr) (v : Word) (s : State) :
    (a = 0x002 ∧ execHwr a v s = .next (s.setStatus (s.status.writeOneToClear v)))
      ∨ (a ≠ 0x002 ∧ writable s.limbs a = false ∧ execHwr a v s = .next (flagBadaddr s))
      ∨ (a ≠ 0x002 ∧ writable s.limbs a = true ∧ s.status.busy = true ∧ execHwr a v s = .next (flagOvr s))
      ∨ (a ≠ 0x002 ∧ s.status.busy = false ∧ ∃ r, hregAt s.limbs a = some r ∧ r.writable = true
          ∧ execHwr a v s = .next (store r v s)) := by
  unfold execHwr writable
  cases h : hregAt s.limbs a with
  | none =>
    refine .inr (.inl ⟨?_, rfl, rfl⟩)
    rintro rfl
    rw [hregAt_eq_status.2 rfl] at h
    cases h
  | some r =>
    by_cases hr : r = .status
    · subst hr
      exact .inl ⟨hregAt_eq_status.1 h, rfl⟩
    · have ha : a ≠ 0x002 := fun e => hr (by rw [hregAt_eq_status.2 e] at h; exact (Option.some.inj h).symm)
      cases hw : r.writable with
      | false => exact .inr (.inl ⟨ha, by simp [hw], by simp [hr, hw]⟩)
      | true =>
        cases hb : s.status.busy with
        | true => exact .inr (.inr (.inl ⟨ha, by simp [hw], rfl, by simp [hr, hw]⟩))
        | false => exact .inr (.inr (.inr ⟨ha, rfl, r, rfl, hw, by simp [hr, hw]⟩))

/-- Everything HRD can do (R68). -/
theorem execHrd_cases (a : HAddr) (s : State) :
    (mapped s.limbs a = false ∧ execHrd a s = .next (returnWord 0 (flagBadaddr s)))
      ∨ (mapped s.limbs a = true ∧ s.status.busy = true ∧ execHrd a s = .next (returnWord s.anyWord s.tookAny))
      ∨ (mapped s.limbs a = true ∧ ∃ r, hregAt s.limbs a = some r
          ∧ (s.status.busy = true → r.exactWhileBusy = true) ∧ execHrd a s = .next (returnWord (s.view r) s)) := by
  unfold execHrd mapped
  cases h : hregAt s.limbs a with
  | none => exact .inl ⟨rfl, rfl⟩
  | some r =>
    cases hb : s.status.busy <;> cases he : r.exactWhileBusy <;> simp [he]

/-- Everything an accepted store can do (R64): latch a command, or set one of ARG0, ARG1, SEED and NUM. -/
theorem store_cases (r : HReg) (v : Word) (s : State) (h : r.writable = true) (hs : r ≠ .status) :
    (r = .cmd ∧ store r v s = latch v s) ∨ (r = .arg0 ∧ store r v s = s.setArg0 v)
      ∨ (r = .arg1 ∧ store r v s = s.setArg1 v)
      ∨ (∃ i, r = .seed i ∧ store r v s = s.setSeed (s.seed.set8 i v))
      ∨ (∃ i, r = .num i ∧ store r v s = s.setNum (s.num.set i v)) := by
  cases r <;> simp_all [HReg.writable, store]

/-- Everything a host write can do while BUSY = 1: clear or set sticky bits (R25, R65, R66). -/
theorem execHwr_busy_cases (a : HAddr) (v : Word) (s : State) (hb : s.status.busy = true) :
    execHwr a v s = .next (s.setStatus (s.status.writeOneToClear v))
      ∨ execHwr a v s = .next (flagBadaddr s) ∨ execHwr a v s = .next (flagOvr s) := by
  rcases execHwr_cases a v s with ⟨-, h⟩ | ⟨-, -, h⟩ | ⟨-, -, -, h⟩ | ⟨-, hf, -⟩
  · exact .inl h
  · exact .inr (.inl h)
  · exact .inr (.inr h)
  · rw [hb] at hf; cases hf

end Sys2Proof.Machine
end

