-- ==== Sys2Proof/Laws/Step.lean ====
section
/-! SUPPORT. What one step can do, and what every instruction's execution does to the inputs. -/

namespace Sys2Proof.Machine

section
variable (s : State)
@[simp] theorem exec_nop : exec .nop s = execNop s := rfl
@[simp] theorem exec_iseed (len : Nat) : exec (.iseed len) s = execIseed len s := rfl
@[simp] theorem exec_inext : exec .inext s = execInext s := rfl
@[simp] theorem exec_irandbits (n : Nat) : exec (.irandbits n) s = execIrandbits n s := rfl
@[simp] theorem exec_xseed : exec .xseed s = execXseed s := rfl
@[simp] theorem exec_xnext : exec .xnext s = execXnext s := rfl
@[simp] theorem exec_xrandbits (n : Nat) : exec (.xrandbits n) s = execXrandbits n s := rfl
@[simp] theorem exec_ocfg (k : Nat) (f : Bool) : exec (.ocfg k f) s = execOcfg k f s := rfl
@[simp] theorem exec_fermat : exec .fermat s = execFermat s := rfl
@[simp] theorem exec_millerrabin : exec .millerrabin s = execMillerrabin s := rfl
@[simp] theorem exec_hwr (a : HAddr) (v : Word) : exec (.hwr a v) s = execHwr a v s := rfl
@[simp] theorem exec_hrd (a : HAddr) : exec (.hrd a) s = execHrd a s := rfl
end

/-- The end of a command as a plain update (R200, R76). -/
theorem release_eq_completed (s : State) : release s = s.completed := rfl

/-- An engine turn finds the engine waiting, or runs the command PEND decodes to, or raises ILLEGAL (R200). -/
theorem engineTurn_cases (s : State) :
    (s.status.busy = false ∧ engineTurn s = .next s)
      ∨ (s.status.busy = true ∧ ∃ i, decodeCommand s.pend = .ok i ∧ engineTurn s = mapNext release (exec i s))
      ∨ (s.status.busy = true ∧ (∃ e, decodeCommand s.pend = .error e)
          ∧ engineTurn s = .next (release (raise .illegal s))) := by
  unfold engineTurn engineStep
  cases hb : s.status.busy with
  | false => exact .inl ⟨rfl, rfl⟩
  | true =>
    cases h : decodeCommand s.pend with
    | ok i => exact .inr (.inl ⟨rfl, i, rfl, rfl⟩)
    | error e => exact .inr (.inr ⟨rfl, ⟨e, rfl⟩, rfl⟩)

/-- Everything a step can do: an engine turn, an access, a refused record, or reset (R73, R240). -/
theorem step_cases (s : State) :
    (s.env.inputs = [] ∧ step s = engineTurn s)
      ∨ (∃ rest, s.env.inputs = .engineTurn :: rest ∧ step s = engineTurn (s.setInputs rest))
      ∨ (∃ r rest i, s.env.inputs = .access r :: rest ∧ decodeRecord r = .ok i ∧ step s = exec i (s.setInputs rest))
      ∨ (∃ r rest e, s.env.inputs = .access r :: rest ∧ decodeRecord r = .error e
          ∧ step s = .refused .malformedRecord)
      ∨ (∃ rest, s.env.inputs = .reset :: rest ∧ step s = .next (applyReset (s.setInputs rest))) := by
  cases h : s.env.inputs with
  | nil => exact .inl ⟨rfl, by simp only [step, h]⟩
  | cons i rest =>
    cases i with
    | engineTurn => exact .inr (.inl ⟨rest, rfl, by simp only [step, h]⟩)
    | access r =>
      cases hd : decodeRecord r with
      | ok i => exact .inr (.inr (.inl ⟨r, rest, i, rfl, hd, by simp only [step, h, hostAccess, hd]⟩))
      | error e => exact .inr (.inr (.inr (.inl ⟨r, rest, e, rfl, hd, by simp only [step, h, hostAccess, hd]⟩)))
    | reset => exact .inr (.inr (.inr (.inr ⟨rest, rfl, by simp only [step, h]⟩)))

/-- A command word decodes to a command. -/
theorem decodeCommand_isCommand {w : Word} {i : Instr} (h : decodeCommand w = .ok i) : i.isCommand = true := by
  unfold decodeCommand at h
  cases hf : opcodeRows.find? (·.selects w) with
  | none => rw [hf] at h; cases h
  | some r =>
    rw [hf] at h
    cases h
    have hr := List.mem_of_find?_eq_some hf
    simp only [opcodeRows, List.mem_cons, List.not_mem_nil, or_false] at hr
    rcases hr with rfl | rfl | rfl | rfl | rfl | rfl | rfl | rfl | rfl | rfl <;> rfl

/-- A record decodes to a host access. -/
theorem decodeRecord_isAccess {r : Record} {i : Instr} (h : decodeRecord r = .ok i) : i.isCommand = false := by
  unfold decodeRecord at h
  split_ifs at h <;> cases h <;> rfl

end Sys2Proof.Machine
end

