-- ==== Sys2Proof/Laws/Units.lean ====
section
/-! SUPPORT. The generators, the packer and the oracle: the equations their claims are proved from, so that no proof
unfolds a loop. -/

namespace Sys2Proof.Machine

/-! ### ISAAC64 -/

@[simp] theorem sweep_zero (r : Sweep) : sweep 0 r = r := rfl

/-- REGEN's loop, one step more (R105). -/
theorem sweep_succ (n : Nat) (r : Sweep) : sweep (n + 1) r = sweepStep (sweep n r) (BitVec.ofNat 8 n) := by
  simp [sweep, List.range_succ]

@[simp] theorem regen_icc (u : Isaac) : (regen u).icc = u.icc + 1 := by simp only [regen]
@[simp] theorem regen_icnt (u : Isaac) : (regen u).icnt = u.icnt := by simp only [regen]

/-- REGEN does not read the cursor (R105). -/
theorem regen_with_icnt (u : Isaac) (c : Fin 257) : regen { u with icnt := c } = { regen u with icnt := c } := by
  simp only [regen]

@[simp] theorem randinit_icnt (u : Isaac) (seed : Pool) : (randinit u seed).icnt = 256 := by simp only [randinit]
@[simp] theorem randinit_icc (u : Isaac) (seed : Pool) : (randinit u seed).icc = 1 := by
  simp only [randinit, regen_icc]; rfl

/-- ISAAC_NEXT with words left (R107). -/
theorem isaacNext_of_ne (u : Isaac) (h : u.icnt ≠ 0) :
    isaacNext u = (u.rsl.get8 (BitVec.ofNat 8 (u.icnt.val - 1)), { u with icnt := pred257 u.icnt }) := by
  simp [isaacNext, refill, h, pred257]

/-- ISAAC_NEXT that finds the cursor at 0 (R107). -/
theorem isaacNext_of_zero (u : Isaac) (h : u.icnt = 0) :
    isaacNext u = ((regen u).rsl.get8 255, { regen u with icnt := 255 }) := by
  simp only [isaacNext, refill, h, if_true]
  rfl

@[simp] theorem afterWords_zero (u : Isaac) : afterWords 0 u = u := rfl

theorem afterWords_succ (j : Nat) (u : Isaac) : afterWords (j + 1) u = (isaacNext (afterWords j u)).2 :=
  Function.iterate_succ_apply' _ _ _

theorem afterWords_succ' (j : Nat) (u : Isaac) : afterWords (j + 1) u = afterWords j (isaacNext u).2 :=
  Function.iterate_succ_apply _ _ _

/-! ### Xorshift128+ -/

@[simp] theorem xsNext_word (x : Xorshift) : (xsNext x).1 = xsL x.s0 ^^^ x.s1 := rfl
@[simp] theorem xsNext_s0 (x : Xorshift) : (xsNext x).2.s0 = x.s1 := rfl
@[simp] theorem xsNext_s1 (x : Xorshift) : (xsNext x).2.s1 = (xsL x.s0 ^^^ x.s1) + x.s1 := rfl

@[simp] theorem afterXsWords_zero (x : Xorshift) : afterXsWords 0 x = x := rfl

theorem afterXsWords_succ (j : Nat) (x : Xorshift) : afterXsWords (j + 1) x = (xsNext (afterXsWords j x)).2 :=
  Function.iterate_succ_apply' _ _ _

/-! ### Packer -/

section
variable {σ : Type} (next : σ → Word × σ) (chunk : Nat → Word → Nat)

@[simp] theorem packLoop_rem_zero (fuel acc : Nat) (u : σ) : packLoop next chunk fuel 0 acc u = (acc, u) := by
  cases fuel <;> simp [packLoop]

/-- One iteration of the packer (R151, R152). -/
theorem packLoop_step (fuel rem acc : Nat) (u : σ) (h : rem ≠ 0) :
    packLoop next chunk (fuel + 1) rem acc u =
      packLoop next chunk fuel (rem - min 64 rem) ((acc <<< min 64 rem) ||| chunk (min 64 rem) (next u).1)
        (next u).2 := by
  simp [packLoop, h]

/-- Fuel beyond the bits that remain changes nothing. -/
theorem packLoop_fuel (fuel rem acc : Nat) (u : σ) (h : rem ≤ fuel) :
    packLoop next chunk fuel rem acc u = packLoop next chunk rem rem acc u := by
  induction fuel using Nat.strong_induction_on generalizing rem acc u with
  | _ fuel ih =>
    cases rem with
    | zero => simp
    | succ r =>
      obtain ⟨f, rfl⟩ : ∃ f, fuel = f + 1 := ⟨fuel - 1, by omega⟩
      rw [packLoop_step _ _ _ _ _ _ (by omega), packLoop_step _ _ _ _ _ _ (by omega)]
      rcases Nat.lt_or_ge r f with hlt | hge
      · rw [ih f (by omega) _ _ _ (by omega), ih r (by omega) _ _ _ (by omega)]
      · obtain rfl : r = f := by omega
        rfl

end

theorem chunkHigh_lt (c : Nat) (w : Word) (h : c ≤ 64) : chunkHigh c w < 2 ^ c := by
  rw [chunkHigh, BitVec.toNat_ushiftRight, Nat.shiftRight_eq_div_pow, Nat.div_lt_iff_lt_mul (by positivity),
    ← Nat.pow_add, show c + (64 - c) = 64 by omega]
  exact w.isLt

theorem chunkLow_lt (c : Nat) (w : Word) : chunkLow c w < 2 ^ c := Nat.mod_lt _ (by positivity)

/-- The `|` of R151 and R152 is an addition: the shifted accumulator's low `c` bits are 0. -/
theorem shift_or_chunk (acc c v : Nat) (h : v < 2 ^ c) : (acc <<< c) ||| v = acc * 2 ^ c + v := by
  rw [Nat.shiftLeft_eq, Nat.mul_comm, Nat.two_pow_add_eq_or_of_lt h]

/-! ### Oracle -/

/-- One bit of the exponent. -/
theorem modexpLoop_succ (n fuel b e acc : Nat) (h : e ≠ 0) :
    modexpLoop n (fuel + 1) b e acc = modexpLoop n fuel (b * b % n) (e / 2) (if e % 2 = 1 then acc * b % n else acc) := by
  simp [modexpLoop, h]

@[simp] theorem modexpLoop_zero (n fuel b acc : Nat) : modexpLoop n fuel b 0 acc = acc := by
  cases fuel <;> simp [modexpLoop]

/-- R8: the base source answers within the range asked for. -/
theorem drawBase_mem (d lo hi : Nat) (h : lo ≤ hi) : lo ≤ drawBase d lo hi ∧ drawBase d lo hi ≤ hi := by
  have := Nat.mod_lt (Config.base d) (show 0 < hi - lo + 1 by omega)
  constructor <;> unfold drawBase <;> omega

/-- Everything GETBASE can do (R176). -/
theorem getBase_cases (o : Oracle) (n d : Nat) :
    (o.fixb = false ∧ getBase o n d = .ok (drawBase d 2 (n - 2), d + 1))
      ∨ (o.fixb = true ∧ (o.obase.toNat < 2 ∨ n - 2 < o.obase.toNat) ∧ getBase o n d = .error .baserange)
      ∨ (o.fixb = true ∧ ¬(o.obase.toNat < 2 ∨ n - 2 < o.obase.toNat) ∧ getBase o n d = .ok (o.obase.toNat, d)) := by
  unfold getBase
  cases h : o.fixb with
  | false => exact .inl ⟨rfl, rfl⟩
  | true =>
    by_cases hr : o.obase.toNat < 2 ∨ n - 2 < o.obase.toNat
    · exact .inr (.inl ⟨rfl, hr, if_pos hr⟩)
    · exact .inr (.inr ⟨rfl, hr, if_neg hr⟩)

/-- A trial is run (R173, R175). -/
theorem runTrials_ok (o : Oracle) (n : Nat) (trial : Nat → Bool) (t d a d' : Nat) (h : getBase o n d = .ok (a, d')) :
    runTrials o n trial (t + 1) d = if trial a then runTrials o n trial t d' else .ok (false, d') := by
  simp only [runTrials, h]

/-- The guards of both tests (R173, R175, R179). -/
theorem primalityTest_guard (o : Oracle) (trial : Nat → Nat → Bool) (n d : Nat) (h : n < 5 ∨ n % 2 = 0) :
    primalityTest o trial n d = .ok (decide (n = 2 ∨ n = 3), d) := by
  unfold primalityTest
  by_cases h1 : n ≤ 1
  · have : ¬(n = 2 ∨ n = 3) := by omega
    simp [h1, this]
  · by_cases h2 : n = 2 ∨ n = 3
    · simp [h1, h2]
    · have h3 : n % 2 = 0 := by omega
      simp [h1, h2, h3]

theorem primalityTest_odd (o : Oracle) (trial : Nat → Nat → Bool) (n d : Nat) (h5 : 5 ≤ n) (h : n % 2 = 1) :
    primalityTest o trial n d = runTrials o n (trial n) o.k.toNat d := by
  have h1 : ¬ n ≤ 1 := by omega
  have h2 : ¬(n = 2 ∨ n = 3) := by omega
  have h3 : ¬ n % 2 = 0 := by omega
  simp only [primalityTest, if_neg h1, if_neg h2, if_neg h3]

end Sys2Proof.Machine
end

