-- ==== Sys2Proof/Laws/Commands.lean ====
section
/-! SUPPORT. Everything each command can do, by cases, and what keeps a state well formed. -/

namespace Sys2Proof.Machine

/-- No instruction stops: each has a next state in every state (R210, R214). -/
theorem exec_next (i : Instr) (s : State) : ∃ t, exec i s = .next t := by
  cases i <;> exact ⟨_, rfl⟩

/-! ### The commands, by cases -/

/-- What a successful ISEED leaves (R110). -/
theorem installStream_eq (seed : Pool) (s : State) :
    installStream seed s =
      { s with isaac := randinit s.isaac seed, status := { s.status with iseeded := true, err := .ok } } := by
  simp only [installStream, succeed, State.setStatus, State.setIsaac, Status.setErr, Status.setIseeded]

theorem execIseed_cases (len : Nat) (s : State) :
    (len = 0 ∧ execIseed len s = .next
        ((installStream (Pool.ofFn fun i => Config.entropy (s.env.entropyDraws + i)) s).tookEntropy 256))
      ∨ (len = 256 ∧ execIseed len s = .next (installStream s.seed s))
      ∨ (len ≠ 0 ∧ len ≠ 256 ∧ execIseed len s = .next (raise .seedlen s)) := by
  unfold execIseed
  by_cases h0 : len = 0
  · exact .inl ⟨h0, by rw [if_pos h0]⟩
  · by_cases h1 : len = 256
    · exact .inr (.inl ⟨h1, by rw [if_neg h0, if_pos h1]⟩)
    · exact .inr (.inr ⟨h0, h1, by rw [if_neg h0, if_neg h1]⟩)

theorem execInext_cases (s : State) :
    (s.status.iseeded = true ∧ execInext s = .next
        (succeed ((s.setRes (isaacNext s.isaac).1).setIsaac (isaacNext s.isaac).2)))
      ∨ (s.status.iseeded = false ∧ execInext s = .next (raise .notseeded s)) := by
  unfold execInext
  cases s.status.iseeded with
  | true => exact .inl ⟨rfl, rfl⟩
  | false => exact .inr ⟨rfl, rfl⟩

theorem execXseed_cases (s : State) :
    ((s.arg0 = 0 ∧ s.arg1 = 0) ∧ execXseed s = .next (raise .degenerate s))
      ∨ (¬(s.arg0 = 0 ∧ s.arg1 = 0) ∧ execXseed s = .next
          (succeed ((s.setXs { s0 := s.arg0, s1 := s.arg1 }).setStatus s.status.setXseeded))) := by
  unfold execXseed
  by_cases h : s.arg0 = 0 ∧ s.arg1 = 0
  · exact .inl ⟨h, by rw [if_pos h]⟩
  · exact .inr ⟨h, by rw [if_neg h]⟩

theorem execXnext_cases (s : State) :
    (s.status.xseeded = true ∧ execXnext s = .next (succeed ((s.setRes (xsNext s.xs).1).setXs (xsNext s.xs).2)))
      ∨ (s.status.xseeded = false ∧ execXnext s = .next (raise .notseeded s)) := by
  unfold execXnext
  cases s.status.xseeded with
  | true => exact .inl ⟨rfl, rfl⟩
  | false => exact .inr ⟨rfl, rfl⟩

/-- R154. -/
theorem legalBitCount_iff (limbs n : Nat) : legalBitCount limbs n = true ↔ 1 ≤ n ∧ n ≤ 64 * limbs := by
  unfold legalBitCount bigw
  rw [Bool.and_eq_true, decide_eq_true_iff, decide_eq_true_iff]

theorem execIrandbits_cases (n : Nat) (s : State) :
    (¬(1 ≤ n ∧ n ≤ 64 * s.limbs) ∧ execIrandbits n s = .next (raise .arg s))
      ∨ ((1 ≤ n ∧ n ≤ 64 * s.limbs) ∧ s.status.iseeded = false ∧ execIrandbits n s = .next (raise .notseeded s))
      ∨ ((1 ≤ n ∧ n ≤ 64 * s.limbs) ∧ s.status.iseeded = true ∧ execIrandbits n s = .next
          (succeed ((writeBig (packHigh n s.isaac).1 s).setIsaac (packHigh n s.isaac).2))) := by
  rw [← legalBitCount_iff]
  unfold execIrandbits
  cases legalBitCount s.limbs n with
  | false => exact .inl ⟨Bool.false_ne_true, rfl⟩
  | true =>
    cases s.status.iseeded with
    | false => exact .inr (.inl ⟨rfl, rfl, rfl⟩)
    | true => exact .inr (.inr ⟨rfl, rfl, rfl⟩)

theorem execXrandbits_cases (n : Nat) (s : State) :
    (¬(1 ≤ n ∧ n ≤ 64 * s.limbs) ∧ execXrandbits n s = .next (raise .arg s))
      ∨ ((1 ≤ n ∧ n ≤ 64 * s.limbs) ∧ s.status.xseeded = false ∧ execXrandbits n s = .next (raise .notseeded s))
      ∨ ((1 ≤ n ∧ n ≤ 64 * s.limbs) ∧ s.status.xseeded = true ∧ execXrandbits n s = .next
          (succeed ((writeBig (packLow n s.xs).1 s).setXs (packLow n s.xs).2))) := by
  rw [← legalBitCount_iff]
  unfold execXrandbits
  cases legalBitCount s.limbs n with
  | false => exact .inl ⟨Bool.false_ne_true, rfl⟩
  | true =>
    cases s.status.xseeded with
    | false => exact .inr (.inl ⟨rfl, rfl, rfl⟩)
    | true => exact .inr (.inr ⟨rfl, rfl, rfl⟩)

theorem execOcfg_cases (k : Nat) (f : Bool) (s : State) :
    (k = 0 ∧ execOcfg k f s = .next (raise .arg s))
      ∨ (k ≠ 0 ∧ execOcfg k f s = .next (succeed (s.setOracle
          { k := BitVec.ofNat 16 k, fixb := f, obase := if f then s.arg0 else s.oracle.obase }))) := by
  unfold execOcfg
  cases k with
  | zero => exact .inl ⟨rfl, rfl⟩
  | succ k => exact .inr ⟨by omega, by simp [legalTrialCount]⟩

/-- The two ends of a primality command (R177, R178, R214). -/
theorem finishTest_cases (r : Except ErrCode (Bool × Nat)) (s : State) :
    (∃ c, r = .error c ∧ finishTest r s = raise c s)
      ∨ ∃ v d, r = .ok (v, d) ∧ finishTest r s = succeed ((s.setRes ((BitVec.ofBool v).setWidth 64)).setBaseDraws d) := by
  cases r with
  | error c => exact .inl ⟨c, rfl, rfl⟩
  | ok p => exact .inr ⟨p.1, p.2, rfl, rfl⟩

/-- The only error trials can raise is BASERANGE (R176). -/
theorem runTrials_error {o : Oracle} {n : Nat} {trial : Nat → Bool} {t d : Nat} {c : ErrCode}
    (h : runTrials o n trial t d = .error c) : c = .baserange := by
  induction t generalizing d with
  | zero => cases h
  | succ t ih =>
    rcases getBase_cases o n d with ⟨-, hg⟩ | ⟨-, -, hg⟩ | ⟨-, -, hg⟩
    · rw [runTrials_ok _ _ _ _ _ _ _ hg] at h
      split at h
      · exact ih h
      · cases h
    · simp only [runTrials, hg] at h
      exact (Except.error.inj h).symm
    · rw [runTrials_ok _ _ _ _ _ _ _ hg] at h
      split at h
      · exact ih h
      · cases h

/-! ### Well-formed states -/

theorem wf_iff (s : State) :
    s.wf = true ↔ 1 ≤ s.limbs ∧ s.limbs ≤ 256 ∧ s.num.length = s.limbs ∧ s.big.length = s.limbs := by
  simp [State.wf, and_assoc]

@[simp] theorem raise_wf (c : ErrCode) (s : State) : (raise c s).wf = s.wf := rfl
@[simp] theorem succeed_wf (s : State) : (succeed s).wf = s.wf := rfl
@[simp] theorem release_wf (s : State) : (release s).wf = s.wf := rfl
@[simp] theorem latch_wf (w : Word) (s : State) : (latch w s).wf = s.wf := rfl
@[simp] theorem flagBadaddr_wf (s : State) : (flagBadaddr s).wf = s.wf := rfl
@[simp] theorem flagOvr_wf (s : State) : (flagOvr s).wf = s.wf := rfl
@[simp] theorem returnWord_wf (v : Word) (s : State) : (returnWord v s).wf = s.wf := rfl
@[simp] theorem setInputs_wf (is : List Input) (s : State) : (s.setInputs is).wf = s.wf := rfl

/-- An accepted host store keeps the arrays' sizes (R37, R64). -/
@[simp] theorem store_wf (r : HReg) (v : Word) (s : State) : (store r v s).wf = s.wf := by
  cases r <;> first | rfl | (unfold State.wf store; rw [State.setNum_num, List.length_set]; rfl)

/-- R153: BIG is written whole. -/
theorem writeBig_wf (v : Nat) (s : State) (h : s.wf = true) : (writeBig v s).wf = true := by
  obtain ⟨h1, h2, h3, -⟩ := (wf_iff s).1 h
  exact (wf_iff _).2 ⟨h1, h2, h3, toLimbs_length _ _⟩

theorem finishTest_wf (r : Except ErrCode (Bool × Nat)) (s : State) : (finishTest r s).wf = s.wf := by
  rcases finishTest_cases r s with ⟨c, -, h⟩ | ⟨v, d, -, h⟩ <;> rw [h] <;> rfl

/-- R241: the state after reset is well formed. -/
theorem afterReset_wf (limbs : Nat) (env : Env) (h1 : 1 ≤ limbs) (h2 : limbs ≤ 256) :
    (State.afterReset limbs env).wf = true := by
  simp [wf_iff, State.afterReset, h1, h2]

theorem reset_wf : State.reset.wf = true := afterReset_wf _ _ (by decide) (by decide)

end Sys2Proof.Machine
end

