-- ==== Sys2Proof/Laws/PerInstr.lean ====
section
/-! SUPPORT. Per instruction: its code is one the opcode map has a row for (30_encoding.md R84, R88). -/

namespace Sys2Proof.Laws.RowMatch

/-- A code some row of the opcode map selects: a command word by mask and match (R84), a record that writes or whose D
is 0 (R88). -/
def hasRow : Code → Prop
  | .command w => ∃ r ∈ opcodeRows, r.selects w = true
  | .record r => txnWrite r = true ∨ txnData r = 0

/-- The code of a well-formed instruction has a row. -/
def Statement (i : Instr) : Prop := i.wellFormed = true → hasRow (encode i)

theorem nop : Statement .nop := fun _ => ⟨opcodeRows[0], List.getElem_mem _, by decide⟩

theorem iseed (len : Nat) : Statement (.iseed len) := fun h =>
  ⟨opcodeRows[1], List.getElem_mem _, by
    rw [commandWord_eq 0x01 len false (by simpa [Instr.wellFormed, fitsImm16] using h)]
    exact beq_iff_eq.2 ((selects_imm16 _ _ _ _ _ _).2 ⟨rfl, rfl, rfl, rfl⟩)⟩

theorem inext : Statement .inext := fun _ => ⟨opcodeRows[2], List.getElem_mem _, by decide⟩

theorem irandbits (n : Nat) : Statement (.irandbits n) := fun h =>
  ⟨opcodeRows[3], List.getElem_mem _, by
    rw [commandWord_eq 0x03 n false (by simpa [Instr.wellFormed, fitsImm16] using h)]
    exact beq_iff_eq.2 ((selects_imm16 _ _ _ _ _ _).2 ⟨rfl, rfl, rfl, rfl⟩)⟩

theorem xseed : Statement .xseed := fun _ => ⟨opcodeRows[4], List.getElem_mem _, by decide⟩

theorem xnext : Statement .xnext := fun _ => ⟨opcodeRows[5], List.getElem_mem _, by decide⟩

theorem xrandbits (n : Nat) : Statement (.xrandbits n) := fun h =>
  ⟨opcodeRows[6], List.getElem_mem _, by
    rw [commandWord_eq 0x0A n false (by simpa [Instr.wellFormed, fitsImm16] using h)]
    exact beq_iff_eq.2 ((selects_imm16 _ _ _ _ _ _).2 ⟨rfl, rfl, rfl, rfl⟩)⟩

theorem ocfg (k : Nat) (f : Bool) : Statement (.ocfg k f) := fun h =>
  ⟨opcodeRows[7], List.getElem_mem _, by
    rw [commandWord_eq 0x10 k f (by simpa [Instr.wellFormed, fitsImm16] using h)]
    exact beq_iff_eq.2 ((selects_imm16F _ _ _ _ _ _).2 ⟨rfl, rfl, rfl⟩)⟩

theorem fermat : Statement .fermat := fun _ => ⟨opcodeRows[8], List.getElem_mem _, by decide⟩

theorem millerrabin : Statement .millerrabin := fun _ => ⟨opcodeRows[9], List.getElem_mem _, by decide⟩

theorem hwr (a : HAddr) (v : Word) : Statement (.hwr a v) := fun _ => .inl (fields_of_recordOf true a v).1

theorem hrd (a : HAddr) : Statement (.hrd a) := fun _ => .inr (fields_of_recordOf false a 0).2.2

end Sys2Proof.Laws.RowMatch
end

