-- ==== Sys2Proof/Tests/Slice0.lean ====
section
/-! SUPPORT. The model's own tests. Expected results are from spec/: the opcode map (30_encoding.md R84, R88), the host
map (20_memory.md R61) and the vectors of 95_test_vectors.md (cited as V<n>). Then the witnesses: states and operands
that meet the hypotheses of the statements in Certificates/Slice0/Obligations.lean, clause by clause. -/

open Sys2Proof Sys2Proof.Machine

namespace Sys2Proof.Tests

/-! ### Small states -/

/-- LIMBS = 4, everything 0, K = 5, the Xorshift128+ pair at (1, 2), nothing seeded. -/
def base : State :=
  { limbs := 4
    status := { busy := false, err := .ok, ovr := false, badaddr := false, iseeded := false, xseeded := false }
    pend := 0, arg0 := 0, arg1 := 0, res := 0
    seed := Pool.ofFn fun _ => 0, num := [0, 0, 0, 0], big := [0, 0, 0, 0]
    isaac := { mm := Pool.ofFn fun _ => 0, rsl := Pool.ofFn fun _ => 0, iaa := 0, ibb := 0, icc := 0, icnt := 0 }
    xs := { s0 := 1, s1 := 2 }
    oracle := { k := 5, fixb := false, obase := 0 }
    env := { inputs := [], rdata := 0, entropyDraws := 0, baseDraws := 0, anyDraws := 0 } }

/-- Both generators seeded. -/
def seeded : State := base.setStatus { base.status with iseeded := true, xseeded := true }

/-- With this command latched. -/
def latched (w : Word) : State := latch w seeded

/-- With these inputs to come. -/
def giving (is : List Input) : State := base.setInputs is

/-- With `n` in NUM, `k` trials, and the fixed base `a`. -/
def testing (n k : Nat) (a : Word) : State :=
  (base.setNum (toLimbs 4 n)).setOracle { k := BitVec.ofNat 16 k, fixb := true, obase := a }

/-- With `n` in NUM, `k` trials, and drawn bases. -/
def drawing (n k : Nat) : State :=
  (base.setNum (toLimbs 4 n)).setOracle { k := BitVec.ofNat 16 k, fixb := false, obase := 0 }

/-- The next state of an outcome that has one. -/
def after : Host.Outcome State Fault Refusal → State
  | .next s => s
  | .fault _ | .refused _ => base

/-! ### WellFormed refuses ill-formed terms (R82) -/

theorem test_illformed_iseed : (Instr.iseed 65536).wellFormed = false := by decide
theorem test_illformed_irandbits : (Instr.irandbits 65536).wellFormed = false := by decide
theorem test_illformed_xrandbits : (Instr.xrandbits 65536).wellFormed = false := by decide
theorem test_illformed_ocfg : (Instr.ocfg 65536 true).wellFormed = false := by decide

/-! ### Decoding words written out from R84 (RSV1, IMM16, RSV0, F, OP) and R88 (W, A, D) -/

theorem test_decode_nop : decodeCommand 0x0000000000000000 = .ok .nop := by decide
/-- R89: L = 256, IMM16 = 0000000100000000, RSV0 = 0000000, F = 0, OP = 00000001. -/
theorem test_decode_iseed : decodeCommand 0b00000001000000000000000000000001 = .ok (.iseed 256) := by decide
theorem test_decode_inext : decodeCommand 0b00000010 = .ok .inext := by decide
/-- V15: n = 130. -/
theorem test_decode_irandbits : decodeCommand 0x0000000000820003 = .ok (.irandbits 130) := by decide
theorem test_decode_xseed : decodeCommand 0b00001000 = .ok .xseed := by decide
theorem test_decode_xnext : decodeCommand 0b00001001 = .ok .xnext := by decide
/-- V16: n = 300. -/
theorem test_decode_xrandbits : decodeCommand 0x00000000012c000a = .ok (.xrandbits 300) := by decide
/-- V19, and bit by bit: IMM16 = 1, RSV0 = 0, F = 1, OP = 00010000. -/
theorem test_decode_ocfg :
    decodeCommand 0x0000000000050010 = .ok (.ocfg 5 false) ∧ decodeCommand 0x00000000ffff0110 = .ok (.ocfg 65535 true)
      ∧ decodeCommand 0b00000000000000010000000100010000 = .ok (.ocfg 1 true) := by decide
theorem test_decode_fermat : decodeCommand 0b00010001 = .ok .fermat := by decide
theorem test_decode_millerrabin : decodeCommand 0b00010010 = .ok .millerrabin := by decide
/-- R88: W = 1, A = 00000000100, D = 7. -/
theorem test_decode_hwr : decodeRecord 0x8040000000000000007 = .ok (.hwr 0x004 7) := by decide
/-- R88: W = 0, A = 01100000001, D = 0; and D ≠ 0 is malformed. -/
theorem test_decode_hrd :
    decodeRecord 0x3010000000000000000 = .ok (.hrd 0x301)
      ∧ decodeRecord 0x3010000000000000001 = .error .malformedRecord := by decide +kernel

/-- V20: its ILLEGAL rows. -/
theorem test_decode_illegal :
    decodeCommand 0x10000 = .error .illegalCommand
      ∧ decodeCommand 0x4 = .error .illegalCommand
      ∧ decodeCommand 0xb = .error .illegalCommand
      ∧ decodeCommand 0x13 = .error .illegalCommand
      ∧ decodeCommand 0xff = .error .illegalCommand
      ∧ decodeCommand 0x100000002 = .error .illegalCommand
      ∧ decodeCommand 0x8000000000000001 = .error .illegalCommand
      ∧ decodeCommand 0x102 = .error .illegalCommand
      ∧ decodeCommand 0x10008 = .error .illegalCommand
      ∧ decodeCommand 0x210 = .error .illegalCommand
      ∧ decodeCommand 0x1000111 = .error .illegalCommand := by decide

/-- The table's numbering of a command word and of a record; one bit too many is no instruction. -/
theorem test_decodeTableWord :
    decodeTableWord 64 0x1000001 = some (.iseed 256) ∧ decodeTableWord 76 0x8040000000000000007 = some (.hwr 0x004 7)
      ∧ decodeTableWord 64 (2 ^ 64) = none ∧ decodeTableWord 76 (2 ^ 76) = none := by decide

/-- The first instruction after reset: XNEXT on an unseeded unit (V14), and a write to an unmapped address (V21). -/
theorem test_withFetchWord :
    (after (step (State.reset.withFetchWord 64 0x9))).status.word = 0x050
      ∧ (after (step (State.reset.withFetchWord 76 0x80E0000000000000000))).status.word = 0x200 := by decide +kernel

/-! ### Instructions, one step each -/

/-- V20: NOP after a failed XSEED reads back 0x000. -/
theorem test_nop : (after (exec .nop (after (exec .xseed base)))).status.word = 0x000 := by decide
theorem test_xseed_degenerate : (after (exec .xseed base)).status.word = 0x030 := by decide
/-- V14: ARG0 = 0, ARG1 = 1. -/
theorem test_xseed : (after (exec .xseed (base.setArg1 1))).status.word = 0x800
    ∧ (after (exec .xseed (base.setArg1 1))).xs = { s0 := 0, s1 := 1 } := by decide
/-- V14: from (1, 2). -/
theorem test_xnext : (after (exec .xnext seeded)).res = 0x800043
    ∧ (after (exec .xnext seeded)).xs = { s0 := 2, s1 := 0x800045 } := by decide +kernel
/-- V14: the top-bit seed, where the shift left loses the bit. -/
theorem test_xnext_topbit :
    (after (exec .xnext (seeded.setXs { s0 := 0x8000000000000000, s1 := 0 }))).res = 0x8000400000000000 := by decide +kernel
/-- V16: n = 100. -/
theorem test_xrandbits : (after (exec (.xrandbits 100) seeded)).big = [0x08000430018000c7, 0, 0, 0]
    ∧ (after (exec (.xrandbits 100) seeded)).xs = { s0 := 0x800045, s1 := 0x200010c } := by decide +kernel
/-- V16: n = 8 takes the low byte; n = 300 is ARG. -/
theorem test_xrandbits_ends : (after (exec (.xrandbits 8) seeded)).big = [0x43, 0, 0, 0]
    ∧ (after (exec (.xrandbits 300) base)).status.word = 0x040 := by decide +kernel

/-- A unit with V15's w1 as the next word. -/
def oneWord : State :=
  seeded.setIsaac { base.isaac with rsl := base.isaac.rsl.set8 255 0x27e0cdc5da56ee0f, icnt := 256 }

/-- V15: n = 8 takes the high byte, and n = 63 the high 63 bits. -/
theorem test_irandbits : (after (exec (.irandbits 8) oneWord)).big = [0x27, 0, 0, 0]
    ∧ (after (exec (.irandbits 63) oneWord)).big = [0x13f066e2ed2b7707, 0, 0, 0]
    ∧ (after (exec (.irandbits 63) oneWord)).isaac.icnt = 255 := by decide +kernel
/-- V15: ARG comes before NOTSEEDED. -/
theorem test_irandbits_errors : (after (exec (.irandbits 0) base)).status.word = 0x040
    ∧ (after (exec (.irandbits 5) base)).status.word = 0x050
    ∧ (after (exec (.irandbits 257) base)).status.word = 0x040 := by decide +kernel
/-- V12: the first word, and the cursor after it; V13: an unseeded unit. -/
theorem test_inext : (after (exec .inext oneWord)).res = 0x27e0cdc5da56ee0f
    ∧ (after (exec .inext oneWord)).isaac.icnt = 255 ∧ (after (exec .inext base)).status.word = 0x050 := by decide +kernel
/-- V13: SEEDLEN. -/
theorem test_iseed_seedlen : (after (exec (.iseed 255) base)).status.word = 0x020
    ∧ (after (exec (.iseed 257) seeded)).status.word = 0xC20 := by decide +kernel
/-- V12, the all-zero seed: MM[0] after pass 1 and after pass 2 of RANDINIT. -/
theorem test_iseed_passes :
    let pass1 := seedPass base.seed (mix (mix (mix (mix goldenAccum))), base.isaac.mm)
    pass1.2.get8 0 = 0xf24e3209fa0f019b ∧ (secondPass pass1).2.get8 0 = 0x3b4605f0c7b9c727 := by decide +kernel
/-- V12: MIX once and four times. -/
theorem test_mix : (mix goldenAccum).h = 0xffbf4c207c714070 ∧ (mix goldenAccum).e = 0x73d308522fbb1ce7
    ∧ (mix (mix (mix (mix goldenAccum)))).a = 0x647c4677a2884b7c := by decide +kernel

/-- A sweep over zeros with these `a` and `b`. -/
def zeroSweep (a b : Word) : Sweep := { mm := base.isaac.mm, rsl := base.isaac.rsl, a := a, b := b }

/-- By hand from R105 and R106: with everything 0 but b = 0xFF00, step 255 writes y = 0xFF00 to MM[255] and then selects
that very element. -/
theorem test_regen_step :
    (sweepStep (zeroSweep 0 0xFF00) 255).mm.get8 255 = 0xFF00 ∧ (sweepStep (zeroSweep 0 0xFF00) 255).b = 0xFF00
      ∧ (sweepStep (zeroSweep 0 0xFF00) 255).rsl.get8 255 = 0xFF00
      ∧ (sweepStep (zeroSweep 0 0) 0).a = 0xFFFFFFFFFFFFFFFF ∧ (sweepStep (zeroSweep 0 0) 0).b = 0 := by decide +kernel

/-- V19: OCFG.FIX 65535 with ARG0 = 7. -/
theorem test_ocfg : ocfgvWord (after (exec (.ocfg 65535 true) (base.setArg0 7))).oracle = 0x1ffff
    ∧ (after (exec (.ocfg 65535 true) (base.setArg0 7))).oracle.obase = 7 := by decide
/-- V19: OCFG 3 keeps OBASE; OCFG 0 is ARG. -/
theorem test_ocfg_keeps : (after (exec (.ocfg 3 false) (testing 0 1 2))).oracle = { k := 3, fixb := false, obase := 2 }
    ∧ (after (exec (.ocfg 0 true) base)).status.word = 0x040 := by decide
/-- V17: 341 and 2047 pass base 2, 9 does not, and OBASE = 4 is out of range for n = 5. -/
theorem test_fermat : (after (exec .fermat (testing 341 1 2))).res = 1 ∧ (after (exec .fermat (testing 2047 1 2))).res = 1
    ∧ (after (exec .fermat (testing 9 1 2))).res = 0
    ∧ (after (exec .fermat (testing 5 1 4))).status.err = .baserange := by decide +kernel
/-- V17: 341 fails base 2, 2047 and 2^255 - 19 pass; V3: n = 3 needs no base. -/
theorem test_millerrabin : (after (exec .millerrabin (testing 341 1 2))).res = 0
    ∧ (after (exec .millerrabin (testing 2047 1 2))).res = 1
    ∧ (after (exec .millerrabin (testing (2 ^ 255 - 19) 1 2))).res = 1
    ∧ (after (exec .millerrabin (testing 3 1 0))).res = 1 := by decide +kernel
/-- V21: RES and BIG are read-only; BADADDR clears by writing bit 9, not bit 8; a write while BUSY = 1 sets OVR. -/
theorem test_hwr : (after (exec (.hwr 0x003 5) base)).status.word = 0x200
    ∧ (after (exec (.hwr 0x500 1) base)).status.word = 0x200
    ∧ (after (exec (.hwr 0x002 0x200) (flagBadaddr base))).status.word = 0x000
    ∧ (after (exec (.hwr 0x002 0x100) (flagBadaddr base))).status.word = 0x200
    ∧ (after (exec (.hwr 0x004 7) (latch 0 base))).status.word = 0x101
    ∧ (after (exec (.hwr 0x004 7) (latch 0 base))).arg0 = 0 := by decide
/-- V21: INFO, OCFGV, and NUM[4] with LIMBS = 4. -/
theorem test_hrd : (after (exec (.hrd 0x000) base)).env.rdata = 0x4 ∧ (after (exec (.hrd 0x006) base)).env.rdata = 0x5
    ∧ (after (exec (.hrd 0x404) base)).env.rdata = 0x0 ∧ (after (exec (.hrd 0x404) base)).status.word = 0x200 := by decide
/-- R241: what reset leaves. -/
theorem test_reset : State.reset.status.word = 0 ∧ ocfgvWord State.reset.oracle = 5 ∧ State.reset.limbs = 4
    ∧ State.reset.isaac.icnt = 0 ∧ State.reset.xs = { s0 := 0, s1 := 0 } := by decide +kernel

/-- R61: the map where its ranges meet, for LIMBS = 4 and LIMBS = 256. -/
theorem test_map :
    hregAt 4 0x00D = some .xs1 ∧ hregAt 4 0x00E = none ∧ hregAt 4 0x0FF = none ∧ hregAt 4 0x100 = some (.mm 0)
      ∧ hregAt 4 0x1FF = some (.mm 255) ∧ hregAt 4 0x200 = some (.rsl 0) ∧ hregAt 4 0x2FF = some (.rsl 255)
      ∧ hregAt 4 0x300 = some (.seed 0) ∧ hregAt 4 0x3FF = some (.seed 255) ∧ hregAt 4 0x400 = some (.num 0)
      ∧ hregAt 4 0x403 = some (.num 3) ∧ hregAt 4 0x404 = none ∧ hregAt 4 0x4FF = none ∧ hregAt 4 0x503 = some (.big 3)
      ∧ hregAt 4 0x504 = none ∧ hregAt 256 0x4FF = some (.num 255) ∧ hregAt 256 0x5FF = some (.big 255)
      ∧ hregAt 4 0x600 = none ∧ hregAt 256 0x7FF = none := by decide

/-! ### Witnesses of the statements' hypotheses -/

theorem test_hyp_DecodeOfEncode : (Instr.ocfg 65535 true).wellFormed = true ∧ (Instr.hwr 0x7FF 0).wellFormed = true := by
  decide

theorem test_hyp_EncodeOfDecode : decode (.command 0xffff0110) = .ok (.ocfg 65535 true)
    ∧ decode (.record 0xFFF0000000000000001) = .ok (.hwr 0x7FF 1) := by decide

theorem test_hyp_IllegalWordsAreTheReservedOnes :
    (∃ r ∈ opcodeRows, (0xffff0110 : Word) &&& r.mask = r.pattern)
      ∧ (reservedWord 0x13 ∧ reservedWord 0x8000000000000001 ∧ reservedWord 0x102 ∧ reservedWord 0x10000)
      ∧ (latched 0x210).env.inputs = [] ∧ (latched 0x210).status.busy = true ∧ reservedWord (latched 0x210).pend := by
  refine ⟨⟨opcodeRows[7], List.getElem_mem _, by decide⟩, ?_, rfl, rfl, ?_⟩ <;> unfold reservedWord <;> decide

theorem test_hyp_RecordFormat :
    BitVec.getLsbD (0x8000000000000000000 : Record) 75 = true
      ∧ BitVec.getLsbD (0x7FF0000000000000000 : Record) 75 = false
      ∧ BitVec.extractLsb' 0 64 (0x7FF0000000000000000 : Record) = 0
      ∧ BitVec.getLsbD (0x0008000000000000000 : Record) 75 = false
      ∧ BitVec.extractLsb' 0 64 (0x0008000000000000000 : Record) ≠ 0
      ∧ (giving [.access 0x0008000000000000000]).env.inputs = [.access 0x0008000000000000000] := by decide

theorem test_hyp_EngineStepRunsTheLatchedCommand :
    (base.env.inputs = [] ∧ base.status.busy = false)
      ∧ ((latched 0x9).env.inputs = [] ∧ (latched 0x9).status.busy = true ∧ decodeCommand (latched 0x9).pend = .ok .xnext)
      ∧ (((latched 0x4).setInputs [.engineTurn]).env.inputs = [.engineTurn]
          ∧ decodeCommand ((latched 0x4).setInputs [.engineTurn]).pend = .error .illegalCommand) := by decide

theorem test_hyp_HostAccessRunsTheRecord :
    (giving [.access 0x0020000000000000000]).env.inputs = [.access 0x0020000000000000000]
      ∧ decodeRecord 0x0020000000000000000 = .ok (.hrd 0x002) := by decide

theorem test_hyp_PlacedWordRunsNext : decodeTableWord 64 0x9 = some .xnext ∧ decodeTableWord 65 (2 ^ 75) = some (.hwr 0 0) := by
  decide

theorem test_hyp_CallMacroCompletes :
    let s := giving [.access (recordOf true 0x001 0x9), .engineTurn, .access (recordOf false 0x002 0)]
    s.status.busy = false ∧ decodeCommand 0x9 = .ok .xnext
      ∧ s.env.inputs = [.access (recordOf true 0x001 0x9), .engineTurn, .access (recordOf false 0x002 0)] := by decide

theorem test_hyp_LatchedCommandIsStable :
    ((latched 0x9).status.busy = true ∧ ∃ t, exec (.hwr 0x001 3) (latched 0x9) = .next t)
      ∧ (∃ t, exec (.hrd 0x7FF) base = .next t) ∧ (Instr.xnext.isCommand = true ∧ ∃ t, exec .xnext base = .next t)
      ∧ base.status.busy = false ∧ (latched 0x9).env.inputs = []
      ∧ ((latched 0x9).setInputs [.engineTurn]).status.busy = true
      ∧ ((latched 0x9).setInputs [.engineTurn]).env.inputs = [.engineTurn] :=
  ⟨⟨rfl, exec_next _ _⟩, exec_next _ _, ⟨rfl, exec_next _ _⟩, rfl, rfl, rfl, rfl⟩

/-- R76: no copy of a completed command is left in PEND, be it legal or not (log 17). -/
theorem test_completed_command_leaves_pend :
    (after (step (latched 0x9))).pend = Config.any 0 ∧ (after (step (latched 0x210))).pend = Config.any 0 := ⟨rfl, rfl⟩

theorem test_hyp_RunsNeverStop :
    (giving [.access 0x0020000000000000000, .engineTurn, .access 0x8010000000000000009, .reset]).inputsWellFormed = true := by
  decide

theorem test_hyp_BusyClearsWithinTheInputs :
    ((latched 0x9).inputsWellFormed = true ∧ (latched 0x9).status.busy = true)
      ∧ ((latched 0x9).setInputs [.access 0x0020000000000000000]).inputsWellFormed = true
      ∧ ((latched 0x9).setInputs [.access 0x0020000000000000000]).status.busy = true
      ∧ (∀ x ∈ ((latched 0x9).setInputs [.access 0x0020000000000000000]).env.inputs, x ≠ .reset)
      ∧ decodeCommand ((latched 0x9).setInputs [.access 0x0020000000000000000]).pend = .ok .xnext
      ∧ (∀ x ∈ ((latched 0x4).setInputs [.engineTurn]).env.inputs, x ≠ .reset)
      ∧ decodeCommand ((latched 0x4).setInputs [.engineTurn]).pend = .error .illegalCommand
      ∧ ((latched 0x9).setInputs [.reset]).inputsWellFormed = true := by decide

theorem test_hyp_StateAfterReset : base.env.inputs = [] := rfl

theorem test_hyp_ResetEventAbandonsTheCommand : ((latched 0x9).setInputs [.reset]).env.inputs = [.reset] := rfl

theorem test_hyp_ResetMeetsInv : 1 ≤ 1 ∧ 1 ≤ 256 ∧ 256 ≤ 256 := by decide

/-- A seeded state with a latched command that meets the invariant, and its step. -/
theorem test_hyp_StepKeepsInv : BlockInv (latched 0x9) ∧ ∃ t, step (latched 0x9) = .next t := by
  refine ⟨⟨by decide, by decide, fun _ => by decide, fun _ => by decide +kernel⟩, ?_⟩
  exact ⟨_, rfl⟩

theorem test_hyp_InfoIsConstant : (∃ t, step (latched 0x9) = .next t) ∧ base.limbs ≤ 256 := ⟨⟨_, rfl⟩, by decide⟩

theorem test_hyp_RegisterMap :
    (0x00E : HAddr) ≤ 0x0FF ∧ (0x100 : HAddr) ≤ 0x1FF ∧ (0x200 : HAddr) ≤ 0x2FF ∧ (0x300 : HAddr) ≤ 0x3FF
      ∧ (0x400 : HAddr) ≤ 0x4FF ∧ (0x500 : HAddr) ≤ 0x5FF ∧ (0x600 : HAddr) ≤ 0x7FF := by decide

theorem test_hyp_MappedAndWritable : mapped 256 0x5FF = true ∧ writable 256 0x4FF = true ∧ writable 1 0x401 = false
    ∧ mapped 1 0x500 = true ∧ mapped 1 0x501 = false ∧ writable 4 0x3FF = true ∧ writable 4 0x500 = false := by decide

theorem test_hyp_HostWrite :
    writable base.limbs 0x003 = false ∧ writable base.limbs 0x404 = false
      ∧ (writable (latched 0x9).limbs 0x005 = true ∧ (latched 0x9).status.busy = true)
      ∧ base.status.busy = false
      ∧ BitVec.toNat (0x3FF : HAddr) = 0x300 + (255 : BitVec 8).toNat
      ∧ (3 < base.limbs ∧ BitVec.toNat (0x403 : HAddr) = 0x400 + 3) := by decide

theorem test_hyp_HostRead :
    mapped base.limbs 0x00E = false ∧ mapped base.limbs 0x7FF = false
      ∧ (mapped (latched 0x9).limbs 0x503 = true ∧ (0x003 : HAddr) ≤ 0x503 ∧ (latched 0x9).status.busy = true)
      ∧ base.status.busy = false
      ∧ (0x10005 : Word).toNat = (5 : BitVec 16).toNat + 65536 * true.toNat
      ∧ (0 : Word).toNat = base.isaac.icnt.val
      ∧ BitVec.toNat (0x1FF : HAddr) = 0x100 + (255 : BitVec 8).toNat
      ∧ BitVec.toNat (0x200 : HAddr) = 0x200 + (0 : BitVec 8).toNat
      ∧ BitVec.toNat (0x3FF : HAddr) = 0x300 + (255 : BitVec 8).toNat
      ∧ (3 < base.limbs ∧ BitVec.toNat (0x403 : HAddr) = 0x400 + 3 ∧ base.num[3]? = some 0)
      ∧ (3 < base.limbs ∧ BitVec.toNat (0x503 : HAddr) = 0x500 + 3 ∧ base.big[3]? = some 0) := by decide +kernel

theorem test_hyp_BadaddrIsSetExactlyBy : base.status.badaddr = false ∧ ∃ t, exec (.hrd 0x404) base = .next t :=
  ⟨rfl, exec_next _ _⟩

theorem test_hyp_OvrIsSetExactlyBy : (latched 0x9).status.ovr = false ∧ ∃ t, exec (.hwr 0x001 0) (latched 0x9) = .next t :=
  ⟨rfl, exec_next _ _⟩

theorem test_hyp_HostAccessFrame :
    (∃ t, exec (.hwr 0x403 1) base = .next t) ∧ (∃ t, exec (.hwr 0x300 1) base = .next t)
      ∧ ∃ t, exec (.hrd 0x000) base = .next t := ⟨exec_next _ _, exec_next _ _, exec_next _ _⟩

theorem test_hyp_NopEffect : opField 0x100 = 0x00 ∧ (0x100 : Word) ≠ 0 := by decide

theorem test_hyp_OcfgEffect : (65535 ≤ 65535 ∧ 65535 ≠ 0) ∧ 1 ≠ 0 ∧ 0 ≤ 65535 := by decide

theorem test_hyp_XseedEffect : ¬((base.setArg1 1).arg0 = 0 ∧ (base.setArg1 1).arg1 = 0) ∧ base.arg0 = 0 ∧ base.arg1 = 0 := by
  decide

/-- V1's intermediate values. -/
theorem test_hyp_XnextEffect :
    (seeded.status.xseeded = true
      ∧ (0x800001 : Word).toNat = seeded.xs.s0.toNat ^^^ (seeded.xs.s0.toNat * 2 ^ 23 % 2 ^ 64)
      ∧ (0x800041 : Word).toNat = (0x800001 : Word).toNat ^^^ ((0x800001 : Word).toNat / 2 ^ 17)
      ∧ (0x800043 : Word).toNat = (0x800041 : Word).toNat ^^^ seeded.xs.s1.toNat)
      ∧ base.status.xseeded = false := by decide +kernel

theorem test_hyp_XorshiftNeverDegenerates :
    (xsNext { s0 := 1, s1 := 2 }).2 = { s0 := 2, s1 := 0x800045 } ∧ ({ s0 := 0, s1 := 1 } : Xorshift) ≠ { s0 := 0, s1 := 0 } := by
  decide +kernel

theorem test_hyp_XorshiftMayReturnZero : (1 : Word) ≠ 0 := by decide

/-- Steps 0 and 255, the second with `ind` selecting the element just written; steps 1 and 2 for their transforms. -/
theorem test_hyp_RegenStepEffect :
    ((0 : Word) = (zeroSweep 0 0).mm[(0 : BitVec 8).toNat] ∧ (0 : BitVec 8).toNat % 4 = 0
        ∧ (0xFFFFFFFFFFFFFFFF : Word) = ~~~((0 : Word) ^^^ (0 : Word) <<< 21)
        ∧ (0xFFFFFFFFFFFFFFFF : Word) = 0xFFFFFFFFFFFFFFFF + (zeroSweep 0 0).mm[((0 : BitVec 8) + 128).toNat]
        ∧ ((0xFFFFFFFFFFFFFFFF : Word) >>> 8).setWidth 8 ≠ (0 : BitVec 8))
      ∧ ((1 : BitVec 8).toNat % 4 = 1 ∧ (2 : BitVec 8).toNat % 4 = 2)
      ∧ ((255 : BitVec 8).toNat % 4 = 3 ∧ (0 : Word) = (0 : Word) ^^^ (0 : Word) >>> 33
        ∧ (0 : Word) = 0 + (zeroSweep 0 0xFF00).mm[((255 : BitVec 8) + 128).toNat]
        ∧ (0xFF00 : Word) = (zeroSweep 0 0xFF00).mm[((0 : Word).setWidth 8).toNat] + 0 + (zeroSweep 0 0xFF00).b
        ∧ ((0xFF00 : Word) >>> 8).setWidth 8 = (255 : BitVec 8)) := by decide +kernel

theorem test_hyp_RegenEffect : base.isaac.icnt = 0 := rfl

theorem test_hyp_IseedEffect : 256 = 256 ∧ 0 = 0 ∧ (1 ≠ 0 ∧ 1 ≠ 256) ∧ (257 ≠ 0 ∧ 257 ≠ 256) := by decide

/-- Two states with the same seed and draw numbers and different streams. -/
theorem test_hyp_SeedAloneDeterminesTheStream :
    oneWord.seed = base.seed ∧ oneWord.env.entropyDraws = base.env.entropyDraws ∧ oneWord.isaac.icnt ≠ base.isaac.icnt
      ∧ (∃ t, exec (.iseed 256) oneWord = .next t) ∧ (∃ t, exec (.iseed 256) base = .next t)
      ∧ (∃ t, exec (.iseed 0) oneWord = .next t) ∧ ∃ t, exec (.iseed 0) base = .next t :=
  ⟨rfl, rfl, by decide, exec_next _ _, exec_next _ _, exec_next _ _, exec_next _ _⟩

/-- A cursor at 256, at 1 and at 0, and an unseeded unit. -/
theorem test_hyp_InextEffect :
    (oneWord.status.iseeded = true ∧ (255 : Fin 257).val + 1 = oneWord.isaac.icnt.val ∧ (255 : Fin 256).val = (255 : Fin 257).val)
      ∧ ((0 : Fin 257).val + 1 = ({ oneWord.isaac with icnt := 1 } : Isaac).icnt.val ∧ (0 : Fin 256).val = (0 : Fin 257).val)
      ∧ (seeded.status.iseeded = true ∧ seeded.isaac.icnt = 0) ∧ base.status.iseeded = false := by decide

/-- n = 0 and 257 are illegal, 1 and 256 legal, on a seeded and on an unseeded unit (LIMBS = 4). -/
theorem test_hyp_RandbitsEffects :
    64 * base.limbs < 257 ∧ (1 ≤ 256 ∧ 256 ≤ 64 * base.limbs) ∧ (1 ≤ 1 ∧ 1 ≤ 64 * base.limbs)
      ∧ base.status.iseeded = false ∧ base.status.xseeded = false
      ∧ seeded.status.iseeded = true ∧ seeded.status.xseeded = true ∧ seeded.limbs = base.limbs := by decide

theorem test_hyp_PackerTakesWordsInOrder : 1 ≤ 64 ∧ 64 ≤ 64 ∧ 1 ≤ 1 := by decide

/-- The hypotheses of BigHoldsThePackedInteger, RandbitsRange and RandbitsWordCount at n = 1 and n = BIGW. -/
theorem test_hyp_RandbitsResults :
    ∀ n ∈ [1, 256], (1 ≤ n ∧ n ≤ 64 * seeded.limbs) ∧ (∃ t, exec (.irandbits n) seeded = .next t)
      ∧ ∃ t, exec (.xrandbits n) seeded = .next t := by
  intro n hn
  refine ⟨?_, exec_next _ _, exec_next _ _⟩
  revert n; decide

theorem test_hyp_ModexpIsExact : 0 < 1 := by decide

theorem test_hyp_DecomposeIsExact : 4 % 2 = 0 ∧ 4 ≤ 4 ∧ (2 ^ 256 - 2) % 2 = 0 ∧ 4 ≤ 2 ^ 256 - 2 := by decide

/-- FermatEffect and MillerRabinEffect: n at 0, 1, 2, 3, 4, 5 and 2^256 - 1; OBASE = 4 out of range for 5, 3 in range. -/
theorem test_hyp_PrimalityEffects :
    (∀ n ∈ [0, 1, 2, 3, 4, 5, 2 ^ 256 - 1], bigval (testing n 1 4).num = n) ∧ (2 ^ 256 - 1) % 2 = 1
      ∧ ((testing 5 1 4).oracle.k ≠ 0 ∧ baseOutOfRange (testing 5 1 4) 5 ∧ baseOutOfRange (testing 5 1 1) 5)
      ∧ ¬baseOutOfRange (testing 5 1 3) 5 ∧ ¬baseOutOfRange (drawing 5 1) 5 := by
  unfold baseOutOfRange
  decide +kernel

theorem test_hyp_DrawnBasesAreInRange : 5 ≤ 5 ∧ (drawing 5 1).oracle.fixb = false := by decide

/-- Both results with drawn bases, whatever the base source answers: every base in [2, 3] passes 5, and every base in
[2, 7] is a witness for 9. -/
theorem test_hyp_DrawCount :
    (bigval (drawing 5 1).num = 5 ∧ bigval (drawing 9 1).num = 9 ∧ (drawing 5 1).oracle.fixb = false)
      ∧ (∃ t, exec .fermat (drawing 5 1) = .next t ∧ t.res = 1) ∧ (∃ t, exec .fermat (drawing 9 1) = .next t ∧ t.res = 0)
      ∧ (∃ t, exec .millerrabin (drawing 5 1) = .next t ∧ t.res = 1)
      ∧ (∃ t, exec .millerrabin (drawing 9 1) = .next t ∧ t.res = 0)
      ∧ (bigval (testing 5 1 3).num = 5 ∧ (testing 5 1 3).oracle.fixb = true
          ∧ ∃ t, exec .fermat (testing 5 1 3) = .next t ∨ exec .millerrabin (testing 5 1 3) = .next t) := by
  have run : ∀ (n : Nat) (trial : Nat → Nat → Bool) (v : Bool),
      5 ≤ n → n % 2 = 1 → (∀ a, 2 ≤ a → a ≤ n - 2 → trial n a = v) →
      (finishTest (primalityTest (drawing n 1).oracle trial n 0) (drawing n 1)).res = (BitVec.ofBool v).setWidth 64 := by
    intro n trial v h5 ho h
    obtain ⟨h1, h2⟩ := drawBase_mem 0 2 (n - 2) (by omega)
    have hk : (drawing n 1).oracle.k.toNat = 0 + 1 := rfl
    rw [primalityTest_odd _ _ _ _ h5 ho, hk, runTrials_ok (drawing n 1).oracle n (trial n) 0 0 _ 1 rfl, h _ h1 h2]
    cases v <;> rfl
  have f5 : ∀ a, 2 ≤ a → a ≤ 5 - 2 → fermatTrial 5 a = true := by intro a h1 h2; interval_cases a <;> decide
  have m5 : ∀ a, 2 ≤ a → a ≤ 5 - 2 → mrTrial 5 a = true := by intro a h1 h2; interval_cases a <;> decide
  have f9 : ∀ a, 2 ≤ a → a ≤ 9 - 2 → fermatTrial 9 a = false := by intro a h1 h2; interval_cases a <;> decide
  have m9 : ∀ a, 2 ≤ a → a ≤ 9 - 2 → mrTrial 9 a = false := by intro a h1 h2; interval_cases a <;> decide
  exact ⟨by decide +kernel, ⟨_, rfl, run 5 _ true (by decide) (by decide) f5⟩,
    ⟨_, rfl, run 9 _ false (by decide) (by decide) f9⟩, ⟨_, rfl, run 5 _ true (by decide) (by decide) m5⟩,
    ⟨_, rfl, run 9 _ false (by decide) (by decide) m9⟩, by decide +kernel, rfl, _, .inl rfl⟩

theorem test_hyp_SmallNumbersTable :
    ∀ n ∈ [0, 1, 2, 3, 4, 6, 2 ^ 256 - 2], bigval (testing n 1 0).num = n ∧ (n < 5 ∨ n % 2 = 0) := by decide +kernel

/-- Base 2 is a witness for 9 whatever K. -/
theorem test_hyp_MoreTrialsNeverTurnZeroIntoOne :
    (testing 9 1 2).oracle.k.toNat ≤ (65535 : BitVec 16).toNat
      ∧ (after (exec .fermat (testing 9 1 2))).res = 0 ∧ (after (exec .fermat (testing 9 1 2))).status.err = .ok
      ∧ (after (exec .millerrabin (testing 9 1 2))).res = 0
      ∧ (after (exec .millerrabin (testing 9 1 2))).status.err = .ok := by decide +kernel

theorem test_hyp_MillerRabinImpliesFermat : 5 % 2 = 1 ∧ mrTrial 5 2 = true := by decide +kernel

theorem test_hyp_PrimesAlwaysPass :
    (bigval (testing 2 1 0).num = 2 ∧ Nat.Prime 2)
      ∧ (bigval (testing 5 1 3).num = 5 ∧ Nat.Prime 5 ∧ ¬baseOutOfRange (testing 5 1 3) 5)
      ∧ ¬baseOutOfRange (drawing 5 65535) 5 := by
  unfold baseOutOfRange
  refine ⟨⟨by decide +kernel, by norm_num⟩, ⟨by decide +kernel, by norm_num, by decide⟩, by decide⟩

theorem test_hyp_OracleConfigurationIsImmutable :
    (∀ k f, Instr.xnext ≠ .ocfg k f) ∧ (∃ t, exec .xnext base = .next t)
      ∧ ∃ t, exec .fermat base = .next t ∨ exec .millerrabin base = .next t :=
  ⟨fun _ _ h => Instr.noConfusion h, exec_next _ _, _, .inl rfl⟩

/-- Each error a command can raise. -/
theorem test_hyp_ErrorsChangeOnlyErr :
    (Instr.irandbits 0).isCommand = true ∧ (after (exec (.irandbits 0) base)).status.err ≠ .ok
      ∧ (after (exec (.iseed 1) base)).status.err = .seedlen ∧ (after (exec .xseed base)).status.err = .degenerate
      ∧ (after (exec .inext base)).status.err = .notseeded
      ∧ (after (exec .fermat (testing 5 1 4))).status.err = .baserange
      ∧ ((latched 0x3).env.inputs = [] ∧ (latched 0x3).status.busy = true
          ∧ decodeCommand (latched 0x3).pend = .ok (.irandbits 0)) := by decide +kernel

theorem test_hyp_CommandFrame : Instr.inext.isCommand = true ∧ ∃ t, exec .inext seeded = .next t := ⟨rfl, exec_next _ _⟩

theorem test_hyp_StatusWriters :
    ((flagOvr (flagBadaddr base)).status.ovr = true ∧ (flagOvr (flagBadaddr base)).status.badaddr = true
        ∧ (after (exec (.hwr 0x002 0x300) (flagOvr (flagBadaddr base)))).status.ovr = false
        ∧ (after (exec (.hwr 0x002 0x300) (flagOvr (flagBadaddr base)))).status.badaddr = false)
      ∧ ((after (exec .xseed (base.setArg1 1))).status.xseeded ≠ base.status.xseeded)
      ∧ ((latched 0x9).env.inputs = [] ∧ (latched 0x9).status.iseeded = true ∧ (latched 0x9).status.xseeded = true
          ∧ (after (step (latched 0x9))).status.err = .ok) := by decide +kernel

end Sys2Proof.Tests
end

/-! ### LIMBS through an execution (10_state.md R27) -/

namespace Sys2Proof.Machine

/-- An accepted host store goes to no register that holds LIMBS (R64). -/
@[simp] theorem store_limbs (r : HReg) (v : Word) (s : State) : (store r v s).limbs = s.limbs := by
  cases r <;> rfl

@[simp] theorem State.tookEntropy_limbs (s : State) (n : Nat) : (s.tookEntropy n).limbs = s.limbs := rfl

@[simp] theorem installStream_limbs (seed : Pool) (s : State) : (installStream seed s).limbs = s.limbs := by
  rw [installStream_eq]

@[simp] theorem finishTest_limbs (r : Except ErrCode (Bool × Nat)) (s : State) : (finishTest r s).limbs = s.limbs := by
  rcases finishTest_cases r s with ⟨c, -, h⟩ | ⟨v, d, -, h⟩ <;> rw [h] <;> rfl

/-- An outcome known to answer `u` passes on the LIMBS of `u`; used with the model's case lemmas. -/
theorem limbs_of_next {o : Host.Outcome State Fault Refusal} {u t : State} {n : Nat}
    (e : o = .next u) (hu : u.limbs = n) (h : o = .next t) : t.limbs = n := by
  cases e.symm.trans h
  exact hu

theorem execHwr_limbs {a : HAddr} {v : Word} {s t : State} (h : execHwr a v s = .next t) : t.limbs = s.limbs := by
  rcases execHwr_cases a v s with ⟨-, e⟩ | ⟨-, -, e⟩ | ⟨-, -, -, e⟩ | ⟨-, -, r, -, -, e⟩
  · exact limbs_of_next e rfl h
  · exact limbs_of_next e rfl h
  · exact limbs_of_next e rfl h
  · exact limbs_of_next e (store_limbs r v s) h

theorem execHrd_limbs {a : HAddr} {s t : State} (h : execHrd a s = .next t) : t.limbs = s.limbs := by
  rcases execHrd_cases a s with ⟨-, e⟩ | ⟨-, -, e⟩ | ⟨-, r, -, -, e⟩ <;> exact limbs_of_next e rfl h

/-- No instruction changes LIMBS. -/
theorem exec_limbs {i : Instr} {s t : State} (h : exec i s = .next t) : t.limbs = s.limbs := by
  cases i with
  | nop => exact limbs_of_next (u := succeed s) rfl rfl h
  | iseed len =>
    rcases execIseed_cases len s with ⟨-, e⟩ | ⟨-, e⟩ | ⟨-, -, e⟩
    · exact limbs_of_next e ((State.tookEntropy_limbs _ 256).trans (installStream_limbs _ s)) h
    · exact limbs_of_next e (installStream_limbs _ s) h
    · exact limbs_of_next e rfl h
  | inext => rcases execInext_cases s with ⟨-, e⟩ | ⟨-, e⟩ <;> exact limbs_of_next e rfl h
  | irandbits n =>
    rcases execIrandbits_cases n s with ⟨-, e⟩ | ⟨-, -, e⟩ | ⟨-, -, e⟩ <;> exact limbs_of_next e rfl h
  | xseed => rcases execXseed_cases s with ⟨-, e⟩ | ⟨-, e⟩ <;> exact limbs_of_next e rfl h
  | xnext => rcases execXnext_cases s with ⟨-, e⟩ | ⟨-, e⟩ <;> exact limbs_of_next e rfl h
  | xrandbits n =>
    rcases execXrandbits_cases n s with ⟨-, e⟩ | ⟨-, -, e⟩ | ⟨-, -, e⟩ <;> exact limbs_of_next e rfl h
  | ocfg k f => rcases execOcfg_cases k f s with ⟨-, e⟩ | ⟨-, e⟩ <;> exact limbs_of_next e rfl h
  | fermat => exact limbs_of_next rfl (finishTest_limbs _ s) h
  | millerrabin => exact limbs_of_next rfl (finishTest_limbs _ s) h
  | hwr a v => exact execHwr_limbs h
  | hrd a => exact execHrd_limbs h

/-- Whatever the engine's turn finds, LIMBS stays: waiting, a command, or an illegal word (R200). -/
theorem engineTurn_limbs {s t : State} (h : engineTurn s = .next t) : t.limbs = s.limbs := by
  rcases engineTurn_cases s with ⟨-, e⟩ | ⟨-, i, -, e⟩ | ⟨-, -, e⟩
  · exact limbs_of_next e rfl h
  · obtain ⟨u, hu⟩ := exec_next i s
    rw [hu] at e
    exact limbs_of_next e ((release_limbs u).trans (exec_limbs hu)) h
  · exact limbs_of_next e rfl h

/-- No step changes LIMBS, not even a reset event (R27, R240). -/
theorem step_limbs {s t : State} (h : step s = .next t) : t.limbs = s.limbs := by
  rcases step_cases s with ⟨-, e⟩ | ⟨rest, -, e⟩ | ⟨r, rest, i, -, -, e⟩ | ⟨r, rest, err, -, -, e⟩ | ⟨rest, -, e⟩
  · exact engineTurn_limbs (e.symm.trans h)
  · exact (engineTurn_limbs (e.symm.trans h)).trans (State.setInputs_limbs s rest)
  · exact (exec_limbs (e.symm.trans h)).trans (State.setInputs_limbs s rest)
  · cases e.symm.trans h
  · exact limbs_of_next e rfl h

/-! ### Reads and writes of INFO and STATUS (R25, R27, R67) -/

/-- A read of a register that is exact while BUSY = 1 returns its value, and nothing else changes (R67, R68). -/
theorem execHrd_exactWhileBusy {a : HAddr} {r : HReg} {s : State} (ha : hregAt s.limbs a = some r)
    (hr : r.exactWhileBusy = true) : execHrd a s = .next (returnWord (s.view r) s) := by
  simp [execHrd, ha, hr]

/-- 0x000 is INFO (R61). -/
theorem hregAt_info (limbs : Nat) : hregAt limbs 0x000 = some .info := rfl

/-- INFO holds every legal LIMBS without loss, with bits 63:16 zero (R27). -/
theorem infoWord_toNat {limbs : Nat} (h : limbs < 2 ^ 16) : (infoWord limbs).toNat = limbs := by
  rw [infoWord, BitVec.toNat_setWidth, BitVec.toNat_ofNat]
  omega

/-- R25's write-one-to-clear, bit by bit. -/
theorem Status.writeOneToClear_eq (v : Word) (st : Status) :
    st.writeOneToClear v =
      { st with
        ovr := if v.getLsbD 8 then false else st.ovr
        badaddr := if v.getLsbD 9 then false else st.badaddr } := by
  unfold Status.writeOneToClear
  cases v.getLsbD 8 <;> cases v.getLsbD 9 <;> simp

/-- A write to STATUS is accepted whatever BUSY is (R25). -/
theorem execHwr_status (v : Word) (s : State) :
    execHwr 0x002 v s = .next (s.setStatus (s.status.writeOneToClear v)) := by
  simp only [execHwr, hregAt_eq_status.2 rfl, if_true]

/-! ### The obligations -/

/-- Settles O17: LIMBS is kept by every step, set by reset, and read at INFO without loss. -/
theorem infoIsConstant : Obligations.InfoIsConstant := by
  unfold Obligations.InfoIsConstant
  refine ⟨fun s t h => step_limbs h, fun limbs env => rfl, fun s hs => ?_⟩
  exact ⟨_, execHrd_exactWhileBusy (hregAt_info s.limbs) rfl, infoWord_toNat (by omega)⟩

/-- Settles O21: neither access to STATUS looks at BUSY. -/
theorem statusAccess : Obligations.StatusAccess := by
  unfold Obligations.StatusAccess
  intro s v
  constructor
  · rw [exec_hwr, execHwr_status, Status.writeOneToClear_eq]
    rfl
  · exact execHrd_exactWhileBusy (hregAt_eq_status.2 rfl) rfl

end Sys2Proof.Machine

/-! ### The register map: which addresses are mapped and which writable (20_memory.md R61, R63) -/

namespace Sys2Proof.Machine

/-- What the map says at an address, page by page. -/
theorem hregAt_cases (limbs : Nat) (a : HAddr) :
    (a.toNat < 256 ∧ hregAt limbs a = lowReg a.toNat)
      ∨ (∃ i : BitVec 8,
          (a.toNat = 0x100 + i.toNat ∧ hregAt limbs a = some (.mm i))
            ∨ (a.toNat = 0x200 + i.toNat ∧ hregAt limbs a = some (.rsl i))
            ∨ (a.toNat = 0x300 + i.toNat ∧ hregAt limbs a = some (.seed i))
            ∨ (a.toNat = 0x400 + i.toNat ∧ hregAt limbs a = if i.toNat < limbs then some (.num i.toNat) else none)
            ∨ (a.toNat = 0x500 + i.toNat ∧ hregAt limbs a = if i.toNat < limbs then some (.big i.toNat) else none))
      ∨ (0x600 ≤ a.toNat ∧ hregAt limbs a = none) := by
  obtain ⟨p, i, hp, ha⟩ := addr_page a
  have hi := i.isLt
  obtain rfl | rfl | rfl | rfl | rfl | rfl | hp6 :
      p = 0 ∨ p = 1 ∨ p = 2 ∨ p = 3 ∨ p = 4 ∨ p = 5 ∨ 6 ≤ p := by omega
  · exact .inl ⟨by omega, hregAt_low (by omega)⟩
  · exact .inr (.inl ⟨i, .inl ⟨ha, hregAt_mm i ha⟩⟩)
  · exact .inr (.inl ⟨i, .inr (.inl ⟨ha, hregAt_rsl i ha⟩)⟩)
  · exact .inr (.inl ⟨i, .inr (.inr (.inl ⟨ha, hregAt_seed i ha⟩))⟩)
  · exact .inr (.inl ⟨i, .inr (.inr (.inr (.inl ⟨ha, hregAt_num i ha⟩)))⟩)
  · exact .inr (.inl ⟨i, .inr (.inr (.inr (.inr ⟨ha, hregAt_big i ha⟩)))⟩)
  · exact .inr (.inr ⟨by omega, hregAt_high (by omega)⟩)

/-- 0x004 is ARG0 (R61). -/
theorem hregAt_arg0 (limbs : Nat) : hregAt limbs 0x004 = some .arg0 := rfl

/-- 0x005 is ARG1 (R61). -/
theorem hregAt_arg1 (limbs : Nat) : hregAt limbs 0x005 = some .arg1 := rfl

/-- NUM's elements by a plain index (R61). -/
theorem hregAt_num_of_lt {limbs : Nat} {a : HAddr} {i : Nat} (hl : i < limbs) (hi : i < 256)
    (ha : a.toNat = 0x400 + i) : hregAt limbs a = some (.num i) := by
  have h8 : (BitVec.ofNat 8 i).toNat = i := by rw [BitVec.toNat_ofNat]; omega
  rw [hregAt_num (BitVec.ofNat 8 i) (by omega), h8, if_pos hl]

/-- In the low page exactly the addresses 0x000 to 0x00D are mapped. -/
theorem lowReg_isSome_iff {n : Nat} : (lowReg n).isSome = true ↔ n ≤ 0x00D := by
  by_cases h : n < 14
  · interval_cases n <;> decide
  · rw [lowReg_none (by omega)]
    exact iff_of_false nofun (by omega)

/-- In the low page the host may write exactly CMD, STATUS, ARG0 and ARG1. -/
theorem lowReg_writable_iff {n : Nat} :
    (lowReg n).any HReg.writable = true ↔ n = 0x001 ∨ n = 0x002 ∨ n = 0x004 ∨ n = 0x005 := by
  by_cases h : n < 14
  · interval_cases n <;> decide
  · rw [lowReg_none (by omega)]
    exact iff_of_false nofun (by omega)

/-- R63's MAPPED: the range of each page that holds registers. -/
theorem mapped_iff {limbs : Nat} {a : HAddr} (hl : limbs ≤ 256) :
    mapped limbs a = true ↔
      a.toNat ≤ 0x00D ∨ (0x100 ≤ a.toNat ∧ a.toNat ≤ 0x3FF) ∨ (0x400 ≤ a.toNat ∧ a.toNat < 0x400 + limbs)
        ∨ (0x500 ≤ a.toNat ∧ a.toNat < 0x500 + limbs) := by
  unfold mapped
  rcases hregAt_cases limbs a with ⟨ha, h⟩ | ⟨i, hp⟩ | ⟨ha, h⟩
  · rw [h, lowReg_isSome_iff]; omega
  · have hi := i.isLt
    rcases hp with ⟨ha, h⟩ | ⟨ha, h⟩ | ⟨ha, h⟩ | ⟨ha, h⟩ | ⟨ha, h⟩ <;> rw [h]
    · exact iff_of_true rfl (by omega)
    · exact iff_of_true rfl (by omega)
    · exact iff_of_true rfl (by omega)
    · split
      · exact iff_of_true rfl (by omega)
      · exact iff_of_false nofun (by omega)
    · split
      · exact iff_of_true rfl (by omega)
      · exact iff_of_false nofun (by omega)
  · rw [h]; exact iff_of_false nofun (by omega)

/-- R63's WRITABLE: four registers of the low page, all of SEED, and LIMBS elements of NUM. -/
theorem writable_iff {limbs : Nat} {a : HAddr} (hl : limbs ≤ 256) :
    writable limbs a = true ↔
      a = 0x001 ∨ a = 0x002 ∨ a = 0x004 ∨ a = 0x005 ∨ (0x300 ≤ a.toNat ∧ a.toNat ≤ 0x3FF)
        ∨ (0x400 ≤ a.toNat ∧ a.toNat < 0x400 + limbs) := by
  simp only [← BitVec.toNat_inj, BitVec.reduceToNat]
  unfold writable
  rcases hregAt_cases limbs a with ⟨ha, h⟩ | ⟨i, hp⟩ | ⟨ha, h⟩
  · rw [h, lowReg_writable_iff]; omega
  · have hi := i.isLt
    rcases hp with ⟨ha, h⟩ | ⟨ha, h⟩ | ⟨ha, h⟩ | ⟨ha, h⟩ | ⟨ha, h⟩ <;> rw [h]
    · exact iff_of_false nofun (by omega)
    · exact iff_of_false nofun (by omega)
    · exact iff_of_true rfl (by omega)
    · split
      · exact iff_of_true rfl (by omega)
      · exact iff_of_false nofun (by omega)
    · exact iff_of_false (by split <;> nofun) (by omega)
  · rw [h]; exact iff_of_false nofun (by omega)

/-! ### Host writes, by their conditions (R64 to R66) -/

/-- A write to a read-only or unmapped address only sets BADADDR (R65). -/
theorem execHwr_of_not_writable {a : HAddr} {s : State} (v : Word) (hw : writable s.limbs a = false) :
    execHwr a v s = .next (flagBadaddr s) := by
  rcases execHwr_cases a v s with ⟨rfl, -⟩ | ⟨-, -, e⟩ | ⟨-, hw', -, -⟩ | ⟨-, -, r, hr, hrw, -⟩
  · exact nomatch (show true = false from hw)
  · exact e
  · rw [hw] at hw'; cases hw'
  · rw [writable, hr, Option.any_some, hrw] at hw; cases hw

/-- A write to a writable register other than STATUS while BUSY = 1 is dropped and only sets OVR (R66). -/
theorem execHwr_of_busy {a : HAddr} {s : State} (v : Word) (ha : a ≠ 0x002) (hw : writable s.limbs a = true)
    (hb : s.status.busy = true) : execHwr a v s = .next (flagOvr s) := by
  rcases execHwr_cases a v s with ⟨ha', -⟩ | ⟨-, hw', -⟩ | ⟨-, -, -, e⟩ | ⟨-, hb', -⟩
  · exact absurd ha' ha
  · rw [hw] at hw'; cases hw'
  · exact e
  · rw [hb] at hb'; cases hb'

/-- While BUSY = 0 a writable register other than STATUS takes the value (R64). -/
theorem execHwr_of_store {a : HAddr} {r : HReg} {s : State} (v : Word) (hb : s.status.busy = false)
    (hr : hregAt s.limbs a = some r) (hw : r.writable = true) (hs : r ≠ .status) :
    execHwr a v s = .next (store r v s) := by
  simp [execHwr, hr, hs, hw, hb]

/-! ### Who writes OVR (R66) -/

/-- An outcome has at most one next state. -/
theorem next_unique {o : Host.Outcome State Fault Refusal} {t u : State} (h : o = .next t) (e : o = .next u) :
    t = u := by
  cases h.symm.trans e
  rfl

/-- The STATUS bits of the host's protocol: BUSY, OVR and BADADDR (R24). -/
def Status.hostBits (st : Status) : Bool × Bool × Bool := (st.busy, st.ovr, st.badaddr)

theorem Status.ovr_of_hostBits {st st' : Status} (h : st.hostBits = st'.hostBits) : st.ovr = st'.ovr :=
  congrArg (fun bits => bits.2.1) h

@[simp] theorem State.tookEntropy_status (s : State) (n : Nat) : (s.tookEntropy n).status = s.status := rfl

theorem installStream_hostBits (seed : Pool) (s : State) :
    (installStream seed s).status.hostBits = s.status.hostBits := by
  rw [installStream_eq]
  rfl

theorem finishTest_hostBits (r : Except ErrCode (Bool × Nat)) (s : State) :
    (finishTest r s).status.hostBits = s.status.hostBits := by
  rcases finishTest_cases r s with ⟨c, -, h⟩ | ⟨v, d, -, h⟩ <;> rw [h] <;> rfl

/-- No command writes BUSY, OVR or BADADDR: of STATUS it writes ERR and its own seeded flag (R26). -/
theorem exec_command_hostBits {i : Instr} {s t : State} (hc : i.isCommand = true) (h : exec i s = .next t) :
    t.status.hostBits = s.status.hostBits := by
  cases i with
  | nop => rw [next_unique h (u := succeed s) rfl]; rfl
  | iseed len =>
    rcases execIseed_cases len s with ⟨-, e⟩ | ⟨-, e⟩ | ⟨-, -, e⟩ <;> rw [next_unique h e]
    · rw [State.tookEntropy_status, installStream_hostBits]
    · exact installStream_hostBits _ s
    · rfl
  | inext => rcases execInext_cases s with ⟨-, e⟩ | ⟨-, e⟩ <;> rw [next_unique h e] <;> rfl
  | irandbits n =>
    rcases execIrandbits_cases n s with ⟨-, e⟩ | ⟨-, -, e⟩ | ⟨-, -, e⟩ <;> rw [next_unique h e] <;> rfl
  | xseed => rcases execXseed_cases s with ⟨-, e⟩ | ⟨-, e⟩ <;> rw [next_unique h e] <;> rfl
  | xnext => rcases execXnext_cases s with ⟨-, e⟩ | ⟨-, e⟩ <;> rw [next_unique h e] <;> rfl
  | xrandbits n =>
    rcases execXrandbits_cases n s with ⟨-, e⟩ | ⟨-, -, e⟩ | ⟨-, -, e⟩ <;> rw [next_unique h e] <;> rfl
  | ocfg k f => rcases execOcfg_cases k f s with ⟨-, e⟩ | ⟨-, e⟩ <;> rw [next_unique h e] <;> rfl
  | fermat => rw [next_unique h rfl]; exact finishTest_hostBits _ s
  | millerrabin => rw [next_unique h rfl]; exact finishTest_hostBits _ s
  | hwr a v => cases hc
  | hrd a => cases hc

@[simp] theorem store_ovr (r : HReg) (v : Word) (s : State) : (store r v s).status.ovr = s.status.ovr := by
  cases r <;> rfl

/-- A host read leaves OVR (R68). -/
theorem execHrd_ovr {a : HAddr} {s t : State} (h : execHrd a s = .next t) : t.status.ovr = s.status.ovr := by
  rcases execHrd_cases a s with ⟨-, e⟩ | ⟨-, -, e⟩ | ⟨-, r, -, -, e⟩ <;> rw [next_unique h e] <;> rfl

/-- Only a host write can change OVR. -/
theorem exec_ovr_of_not_hwr {i : Instr} {s t : State} (hi : ∀ a v, i ≠ .hwr a v) (h : exec i s = .next t) :
    t.status.ovr = s.status.ovr := by
  cases hc : i.isCommand with
  | true => exact Status.ovr_of_hostBits (exec_command_hostBits hc h)
  | false =>
    cases i with
    | hwr a v => exact absurd rfl (hi a v)
    | hrd a => exact execHrd_ovr h
    | _ => cases hc

/-- A host write raises OVR exactly when it is dropped because BUSY = 1 (R66). -/
theorem execHwr_ovr_iff {a : HAddr} {v : Word} {s t : State} (h0 : s.status.ovr = false)
    (h : execHwr a v s = .next t) :
    t.status.ovr = true ↔ a ≠ 0x002 ∧ writable s.limbs a = true ∧ s.status.busy = true := by
  rcases execHwr_cases a v s with ⟨ha, e⟩ | ⟨-, hw, e⟩ | ⟨ha, hw, hb, e⟩ | ⟨-, hb, r, -, -, e⟩ <;>
    rw [next_unique h e]
  · simp [h0, ha]
  · simp [flagBadaddr, h0, hw]
  · exact iff_of_true rfl ⟨ha, hw, hb⟩
  · simp [h0, hb]

/-! ### The obligations -/

/-- Settles O19: MAPPED and WRITABLE page by page. -/
theorem mappedAndWritable : Obligations.MappedAndWritable := by
  unfold Obligations.MappedAndWritable
  exact fun limbs a hl => ⟨mapped_iff hl, writable_iff hl⟩

/-- Settles O22: the write to STATUS is that of O21; the others are turned away or stored. -/
theorem hostWrite : Obligations.HostWrite := by
  unfold Obligations.HostWrite
  intro s a v
  refine ⟨?_, execHwr_of_not_writable v, execHwr_of_busy v, fun hb => ⟨?_, ?_, ?_, fun i ha => ?_, fun i hl hi ha => ?_⟩⟩
  · rintro rfl; exact (statusAccess s v).1
  · rintro rfl; exact execHwr_of_store v hb (hregAt_eq_cmd.2 rfl) rfl nofun
  · rintro rfl; exact execHwr_of_store v hb (hregAt_arg0 s.limbs) rfl nofun
  · rintro rfl; exact execHwr_of_store v hb (hregAt_arg1 s.limbs) rfl nofun
  · exact execHwr_of_store v hb (hregAt_seed i ha) rfl nofun
  · exact execHwr_of_store v hb (hregAt_num_of_lt hl hi ha) rfl nofun

/-- Settles O25: commands and reads keep OVR, and of the writes only the dropped one sets it. -/
theorem ovrIsSetExactlyBy : Obligations.OvrIsSetExactlyBy := by
  unfold Obligations.OvrIsSetExactlyBy
  intro i s t h0 h
  by_cases hi : ∃ a v, i = .hwr a v
  · obtain ⟨a, v, rfl⟩ := hi
    have hiff := execHwr_ovr_iff h0 h
    refine ⟨hiff.trans ⟨fun hd => ⟨a, v, rfl, hd⟩, ?_⟩, fun ht => ?_⟩
    · rintro ⟨a', v', e, hd⟩
      cases e
      exact hd
    · obtain ⟨ha, hw, hb⟩ := hiff.1 ht
      exact next_unique h (execHwr_of_busy v ha hw hb)
  · have hf : t.status.ovr = false := (exec_ovr_of_not_hwr (fun a v e => hi ⟨a, v, e⟩) h).trans h0
    rw [hf]
    exact ⟨⟨nofun, fun ⟨a, v, e, _⟩ => absurd ⟨a, v, e⟩ hi⟩, nofun⟩

end Sys2Proof.Machine

/-! ### One step of REGEN, and what REGEN reads (40_isaac64.md R104 to R106) -/

namespace Sys2Proof.Machine

/-- A register array at a plain index is read as the model reads it. -/
theorem Pool.getElem_eq_get8 (p : Pool) (i : BitVec 8) : p[i.toNat] = p.get8 i := rfl

theorem Pool.get8_last (p : Pool) : p.get8 255 = p[255] := rfl

/-- The transform of step m is the one row of R105's table whose residue m has. -/
theorem mixedA_eq_of_rows {m : BitVec 8} {a ma : Word} (h0 : m.toNat % 4 = 0 → ma = ~~~(a ^^^ a <<< 21))
    (h1 : m.toNat % 4 = 1 → ma = a ^^^ a >>> 5) (h2 : m.toNat % 4 = 2 → ma = a ^^^ a <<< 12)
    (h3 : m.toNat % 4 = 3 → ma = a ^^^ a >>> 33) : mixedA m a = ma := by
  obtain h | h | h | h : m.toNat % 4 = 0 ∨ m.toNat % 4 = 1 ∨ m.toNat % 4 = 2 ∨ m.toNat % 4 = 3 := by omega
  · simp only [mixedA, h, h0 h]
  · simp only [mixedA, h, h1 h]
  · simp only [mixedA, h, h2 h]
  · simp only [mixedA, h, h3 h]

/-- `ind` after element `m` was written: the new word when `v` selects `m` (R104, R106). -/
theorem ind_set8 (mm : Pool) (m : BitVec 8) (y v : Word) :
    ind (mm.set8 m y) v = if v.setWidth 8 = m then y else ind mm v :=
  Pool.get8_set8 mm m (v.setWidth 8) y

/-- A step of REGEN writes RSL and does not read it (R106). -/
theorem sweepStep_with_rsl (r : Sweep) (rsl : Pool) (m : BitVec 8) :
    sweepStep { r with rsl := rsl } m = { sweepStep r m with rsl := rsl.set8 m (sweepStep r m).b } := rfl

/-- The first `n` steps write the first `n` elements of RSL: from two states that differ in RSL only they leave two
states that differ in the other elements only. -/
theorem sweep_with_rsl (r : Sweep) (rsl : Pool) (n : Nat) (hn : n ≤ 256) :
    ∃ rsl' : Pool, sweep n { r with rsl := rsl } = { sweep n r with rsl := rsl' }
      ∧ ∀ i : BitVec 8, i.toNat < n → rsl'.get8 i = (sweep n r).rsl.get8 i := by
  induction n with
  | zero => exact ⟨rsl, rfl, fun i hi => absurd hi (Nat.not_lt_zero _)⟩
  | succ n ih =>
    obtain ⟨rsl', heq, hagree⟩ := ih (by omega)
    refine ⟨rsl'.set8 (BitVec.ofNat 8 n) (sweepStep (sweep n r) (BitVec.ofNat 8 n)).b, ?_, fun i hi => ?_⟩
    · rw [sweep_succ, sweep_succ, heq, sweepStep_with_rsl]
    · have hstep : (sweepStep (sweep n r) (BitVec.ofNat 8 n)).rsl =
          (sweep n r).rsl.set8 (BitVec.ofNat 8 n) (sweepStep (sweep n r) (BitVec.ofNat 8 n)).b := rfl
      rw [sweep_succ, hstep, Pool.get8_set8, Pool.get8_set8]
      split
      next => rfl
      next hne =>
        have hi' : i.toNat ≠ n := fun e => hne (by rw [← e, BitVec.ofNat_toNat, BitVec.setWidth_eq])
        exact hagree i (by omega)

/-- REGEN overwrites all of RSL without reading it (R105, R106). -/
theorem regen_with_rsl (u : Isaac) (rsl : Pool) : regen { u with rsl := rsl } = regen u := by
  obtain ⟨rsl', heq, hagree⟩ :=
    sweep_with_rsl { mm := u.mm, rsl := u.rsl, a := u.iaa, b := u.ibb + (u.icc + 1) } rsl 256 le_rfl
  have hrsl := Pool.ext8 fun i => hagree i i.isLt
  simp only [regen, heq, hrsl]

/-! ### The two passes of RANDINIT (R103) -/

/-- Group `g` of a register array, as eight accumulators. -/
def groupOf (p : Pool) (g : Nat) : Accum :=
  { a := p.get8 (slot g 0), b := p.get8 (slot g 1), c := p.get8 (slot g 2), d := p.get8 (slot g 3)
    e := p.get8 (slot g 4), f := p.get8 (slot g 5), g := p.get8 (slot g 6), h := p.get8 (slot g 7) }

/-- The accumulators with eight words added. -/
def Accum.add (x w : Accum) : Accum :=
  { a := x.a + w.a, b := x.b + w.b, c := x.c + w.c, d := x.d + w.d
    e := x.e + w.e, f := x.f + w.f, g := x.g + w.g, h := x.h + w.h }

/-- The accumulators after each group of a pass that adds the words `w g` in group `g` and is never reset. -/
def Accum.chain (x : Accum) (w : Nat → Accum) : Nat → Accum
  | 0 => x
  | g + 1 => mix ((x.chain w g).add (w g))

/-- The first `n` groups of a pass that reads its words from `src mm`, MM being `mm` when the group begins. -/
def runGroups (src : Pool → Pool) (n : Nat) (st : Accum × Pool) : Accum × Pool :=
  (List.range n).foldl (fun st g => absorb (src st.2) st g) st

theorem addGroup_eq_add (x : Accum) (src : Pool) (g : Nat) : x.addGroup src g = x.add (groupOf src g) := rfl

theorem seedPass_eq_runGroups (seed : Pool) (st : Accum × Pool) :
    seedPass seed st = runGroups (fun _ => seed) 32 st := rfl

theorem secondPass_eq_runGroups (st : Accum × Pool) : secondPass st = runGroups id 32 st := rfl

theorem runGroups_succ (src : Pool → Pool) (n : Nat) (st : Accum × Pool) :
    runGroups src (n + 1) st = absorb (src (runGroups src n st).2) (runGroups src n st) n := by
  simp [runGroups, List.range_succ]

/-- The 256 elements are 32 groups of eight. -/
theorem slot_eq_iff {g g' k k' : Nat} (hg : g < 32) (hg' : g' < 32) (hk : k < 8) (hk' : k' < 8) :
    slot g k = slot g' k' ↔ g = g' ∧ k = k' := by
  rw [slot, slot, ← BitVec.toNat_inj, BitVec.toNat_ofNat, BitVec.toNat_ofNat]
  omega

theorem groupOf_storeGroup_same (mm : Pool) (x : Accum) {g : Nat} (hg : g < 32) :
    groupOf (storeGroup mm g x) g = x := by
  simp [groupOf, storeGroup, slot_eq_iff hg hg]

theorem groupOf_storeGroup_of_ne (mm : Pool) (x : Accum) {g g' : Nat} (hg : g < 32) (hg' : g' < 32) (hne : g' ≠ g) :
    groupOf (storeGroup mm g x) g' = groupOf mm g' := by
  simp [groupOf, storeGroup, slot_eq_iff hg' hg, hne]

/-- What a pass over MM = `mm` from accumulators `x` has done after `n` groups, when group `g` adds the words `w g`: the
accumulators ran along the chain, each finished group of MM holds the accumulators stored there, the others are as
before. -/
structure PassInv (x : Accum) (w : Nat → Accum) (mm : Pool) (n : Nat) (st : Accum × Pool) : Prop where
  accum : st.1 = x.chain w n
  stored : ∀ g < n, groupOf st.2 g = x.chain w (g + 1)
  untouched : ∀ g, n ≤ g → g < 32 → groupOf st.2 g = groupOf mm g

/-- One group keeps the invariant. -/
theorem PassInv.absorb {x : Accum} {w : Nat → Accum} {mm : Pool} {n : Nat} {st : Accum × Pool} (src : Pool)
    (hn : n < 32) (hw : groupOf src n = w n) (h : PassInv x w mm n st) :
    PassInv x w mm (n + 1) (Machine.absorb src st n) := by
  have hmix : mix (st.1.addGroup src n) = x.chain w (n + 1) := by
    rw [addGroup_eq_add, hw, h.accum, Accum.chain]
  have hst : Machine.absorb src st n = (x.chain w (n + 1), storeGroup st.2 n (x.chain w (n + 1))) := by
    simp only [Machine.absorb, hmix]
  rw [hst]
  refine ⟨rfl, fun g hg => ?_, fun g hge hlt => ?_⟩
  · by_cases hgn : g = n
    · subst hgn
      exact groupOf_storeGroup_same st.2 _ hn
    · rw [groupOf_storeGroup_of_ne st.2 _ hn (by omega) hgn]
      exact h.stored g (by omega)
  · rw [groupOf_storeGroup_of_ne st.2 _ hn hlt (by omega)]
    exact h.untouched g (by omega) hlt

/-- A pass keeps the invariant through its 32 groups when a group that MM still holds as at the start adds `w`. -/
theorem runGroups_inv {src : Pool → Pool} {x : Accum} {w : Nat → Accum} {mm : Pool}
    (hw : ∀ p g, groupOf p g = groupOf mm g → groupOf (src p) g = w g) (n : Nat) (hn : n ≤ 32) :
    PassInv x w mm n (runGroups src n (x, mm)) := by
  induction n with
  | zero => exact ⟨rfl, fun g hg => absurd hg (Nat.not_lt_zero g), fun _ _ _ => rfl⟩
  | succ n ih =>
    have h := ih (by omega)
    rw [runGroups_succ]
    exact h.absorb _ hn (hw _ n (h.untouched n le_rfl hn))

/-- The first pass adds the seed (R103, step 3). -/
theorem seedPass_inv (seed : Pool) (x : Accum) (mm : Pool) :
    PassInv x (groupOf seed) mm 32 (seedPass seed (x, mm)) := by
  rw [seedPass_eq_runGroups]
  exact runGroups_inv (fun _ _ _ => rfl) 32 le_rfl

/-- The second pass adds what MM held when it began: a group is read before it is overwritten (R103, step 4). -/
theorem secondPass_inv (x : Accum) (mm : Pool) : PassInv x (groupOf mm) mm 32 (secondPass (x, mm)) := by
  rw [secondPass_eq_runGroups]
  exact runGroups_inv (fun _ _ h => h) 32 le_rfl

/-- The accumulators and MM after the first pass, from four MIXes of the golden ratio (R103, steps 1 to 3). -/
def afterSeedPass (u : Isaac) (seed : Pool) : Accum × Pool :=
  seedPass seed (mix (mix (mix (mix goldenAccum))), u.mm)

/-- The unit as RANDINIT hands it to REGEN: MM as the second pass stored it, the accumulators zero (R103). -/
def randinitStart (u : Isaac) (seed : Pool) : Isaac :=
  { mm := (secondPass (afterSeedPass u seed)).2, rsl := u.rsl, iaa := 0, ibb := 0, icc := 0, icnt := u.icnt }

theorem randinit_eq (u : Isaac) (seed : Pool) :
    randinit u seed = { regen (randinitStart u seed) with icnt := 256 } := rfl

/-- The passes neither read nor write RSL. -/
theorem randinitStart_with_rsl (u : Isaac) (rsl seed : Pool) :
    randinitStart { u with rsl := rsl } seed = { randinitStart u seed with rsl := rsl } := rfl

/-- What RSL holds does not enter a new stream (R103, R105). -/
theorem randinit_with_rsl (u : Isaac) (rsl seed : Pool) : randinit { u with rsl := rsl } seed = randinit u seed := by
  rw [randinit_eq, randinitStart_with_rsl, regen_with_rsl, randinit_eq]

/-! ### ISEED and INEXT (R107, R110, R111) -/

/-- The next 256 answers of the entropy source after `d` draws (R110). -/
def entropyBlock (d : Nat) : Pool := Pool.ofFn fun i => Config.entropy (d + i)

theorem entropyBlock_getElem (d : Nat) (i : BitVec 8) : (entropyBlock d)[i.toNat] = Config.entropy (d + i.toNat) := by
  rw [Pool.getElem_eq_get8, entropyBlock, Pool.get8_ofFn]

/-- INEXT of a seeded unit is one ISAAC_NEXT (R111). -/
theorem execInext_of_seeded {s : State} (h : s.status.iseeded = true) :
    execInext s = .next
      { s with res := (isaacNext s.isaac).1, isaac := (isaacNext s.isaac).2
               status := { s.status with err := .ok } } := by
  rcases execInext_cases s with ⟨-, e⟩ | ⟨h', -⟩
  · exact e
  · rw [h] at h'; cases h'

/-- ISAAC_NEXT with `c + 1` words left returns RSL[c] and leaves `c` (R107). -/
theorem isaacNext_of_succ {u : Isaac} {c : Fin 257} {j : Fin 256} (hc : c.val + 1 = u.icnt.val) (hj : j.val = c.val) :
    isaacNext u = (u.rsl[j], { u with icnt := c }) := by
  have hne : u.icnt ≠ 0 := fun e => by rw [e] at hc; exact Nat.succ_ne_zero _ hc
  have hcur : pred257 u.icnt = c := Fin.ext (by simp only [pred257]; omega)
  have hidx : (BitVec.ofNat 8 (u.icnt.val - 1)).toNat = j.val := by rw [BitVec.toNat_ofNat]; omega
  rw [isaacNext_of_ne u hne, hcur]
  simp only [Pool.get8, hidx, Fin.getElem_fin]

/-! ### The obligations -/

/-- Settles O34: each pass keeps `PassInv`, and REGEN overwrites RSL. -/
theorem randinitEffect : Obligations.RandinitEffect := by
  unfold Obligations.RandinitEffect
  intro k u seed
  refine ⟨fun rsl => randinit_with_rsl u rsl seed, ?_⟩
  obtain ⟨hacc1, hmm1, -⟩ := seedPass_inv seed (mix (mix (mix (mix goldenAccum)))) u.mm
  obtain ⟨-, hmm2, -⟩ := secondPass_inv (afterSeedPass u seed).1 (afterSeedPass u seed).2
  refine ⟨(mix (mix (mix (mix goldenAccum)))).chain (groupOf seed),
    (afterSeedPass u seed).1.chain (groupOf (afterSeedPass u seed).2), (randinitStart u seed).mm,
    rfl, fun g _ => rfl, hacc1, fun g hg => ?_, fun g hg => (hmm2 g hg).symm, randinit_eq u seed⟩
  rw [← hmm1 g hg]
  rfl

/-- Settles O35: the transform is its row of R105's table, and the second `ind` reads MM with element m written. -/
theorem regenStepEffect : Obligations.RegenStepEffect := by
  unfold Obligations.RegenStepEffect
  intro r m x ma a y indy hx h0 h1 h2 h3 ha hy hindy
  have hma : mixedA m r.a = ma := mixedA_eq_of_rows h0 h1 h2 h3
  have hind : ind (r.mm.set8 m y) (y >>> 8) = indy := by rw [ind_set8, hindy]; rfl
  have hstep : sweepStep r m = { mm := r.mm.set8 m y, rsl := r.rsl.set8 m (indy + x), a := a, b := indy + x } := by
    subst hx ha hy
    rw [← hind, ← hma]
    rfl
  rw [hstep]
  exact ⟨fun j => Pool.get8_set8 r.mm m j y, fun j => Pool.get8_set8 r.rsl m j (indy + x), rfl, rfl⟩

/-- Settles O37: the drawn array is the one the model builds from the next 256 answers of the entropy source. -/
theorem iseedEffect : Obligations.IseedEffect := by
  unfold Obligations.IseedEffect
  intro s len
  rw [exec_iseed]
  rcases execIseed_cases len s with ⟨h, e⟩ | ⟨h, e⟩ | ⟨h0, h256, e⟩
  · refine ⟨fun h' => by omega, fun _ => ⟨_, entropyBlock_getElem s.env.entropyDraws, ?_⟩, fun h' => absurd h h'⟩
    rw [e, installStream_eq]
    rfl
  · refine ⟨fun _ => ?_, fun h' => by omega, fun _ h' => absurd h h'⟩
    rw [e, installStream_eq]
  · exact ⟨fun h => absurd h h256, fun h => absurd h h0, fun _ _ => e⟩

/-- Settles O39: INEXT is one ISAAC_NEXT, with words left or at cursor 0. -/
theorem inextEffect : Obligations.InextEffect := by
  unfold Obligations.InextEffect
  intro s
  rw [exec_inext]
  refine ⟨fun hs c hc j hj => ?_, fun hs h0 => ?_, fun hs => ?_⟩
  · rw [execInext_of_seeded hs, isaacNext_of_succ hc hj]
  · rw [execInext_of_seeded hs, isaacNext_of_zero s.isaac h0, Pool.get8_last]
  · rcases execInext_cases s with ⟨h, -⟩ | ⟨-, e⟩
    · rw [hs] at h; cases h
    · exact e

end Sys2Proof.Machine

/-! ### XSEED and XNEXT (41_xorshift128plus.md R131 to R135) -/

namespace Sys2Proof.Machine

/-- XSEED with a word other than 0 installs the stream (R134). -/
theorem execXseed_of_nonzero {s : State} (h : ¬(s.arg0 = 0 ∧ s.arg1 = 0)) :
    execXseed s = .next
      { s with xs := { s0 := s.arg0, s1 := s.arg1 }, status := { s.status with xseeded := true, err := .ok } } := by
  rcases execXseed_cases s with ⟨h0, -⟩ | ⟨-, e⟩
  · exact absurd h0 h
  · exact e

/-- XSEED with both words 0 changes only ERR (R134, R214). -/
theorem execXseed_of_zero {s : State} (h : s.arg0 = 0 ∧ s.arg1 = 0) : execXseed s = .next (raise .degenerate s) := by
  rcases execXseed_cases s with ⟨-, e⟩ | ⟨hne, -⟩
  · exact e
  · exact absurd h hne

/-- XNEXT of a seeded unit is one XS_NEXT (R135). -/
theorem execXnext_of_seeded {s : State} (h : s.status.xseeded = true) :
    execXnext s = .next
      { s with res := (xsNext s.xs).1, xs := (xsNext s.xs).2, status := { s.status with err := .ok } } := by
  rcases execXnext_cases s with ⟨-, e⟩ | ⟨h', -⟩
  · exact e
  · rw [h] at h'; cases h'

/-- XNEXT of an unseeded unit changes only ERR (R135, R214). -/
theorem execXnext_of_unseeded {s : State} (h : s.status.xseeded = false) :
    execXnext s = .next (raise .notseeded s) := by
  rcases execXnext_cases s with ⟨h', -⟩ | ⟨-, e⟩
  · rw [h] at h'; cases h'
  · exact e

/-- The first line of the chain: multiplication modulo 2^64, so the bits past bit 63 are dropped (R132). -/
theorem xor_shiftLeft_eq_of_toNat {w t : Word} {n : Nat} (h : t.toNat = w.toNat ^^^ (w.toNat * 2 ^ n % 2 ^ 64)) :
    w ^^^ w <<< n = t := by
  apply BitVec.eq_of_toNat_eq
  rw [h, BitVec.toNat_xor, BitVec.toNat_shiftLeft, Nat.shiftLeft_eq]

/-- The second line of the chain: division by a power of two. -/
theorem xor_shiftRight_eq_of_toNat {w t : Word} {n : Nat} (h : t.toNat = w.toNat ^^^ (w.toNat / 2 ^ n)) :
    w ^^^ w >>> n = t := by
  apply BitVec.eq_of_toNat_eq
  rw [h, BitVec.toNat_xor, BitVec.toNat_ushiftRight, Nat.shiftRight_eq_div_pow]

/-- XS_NEXT's three XORs in arithmetic, each on the value the one before left (R131): `t3` is s0_new. -/
theorem xsNext_eq_of_chain {x : Xorshift} {t1 t2 t3 : Word}
    (h1 : t1.toNat = x.s0.toNat ^^^ (x.s0.toNat * 2 ^ 23 % 2 ^ 64))
    (h2 : t2.toNat = t1.toNat ^^^ (t1.toNat / 2 ^ 17)) (h3 : t3.toNat = t2.toNat ^^^ x.s1.toNat) :
    xsNext x = (t3, { s0 := x.s1, s1 := t3 + x.s1 }) := by
  have hL : xsL x.s0 = t2 := by
    rw [xsL, xor_shiftLeft_eq_of_toNat h1]
    exact xor_shiftRight_eq_of_toNat h2
  have hword : t2 ^^^ x.s1 = t3 := BitVec.eq_of_toNat_eq (by rw [BitVec.toNat_xor, h3])
  rw [xsNext, hL, hword]

/-! ### The obligations -/

/-- Settles O29: the two cases of XSEED. -/
theorem xseedEffect : Obligations.XseedEffect := by
  unfold Obligations.XseedEffect
  exact fun s => ⟨execXseed_of_nonzero, fun h0 h1 => execXseed_of_zero ⟨h0, h1⟩⟩

/-- Settles O30: the two cases of XNEXT, the word of the seeded one by the chain in arithmetic. -/
theorem xnextEffect : Obligations.XnextEffect := by
  unfold Obligations.XnextEffect
  intro s
  rw [exec_xnext]
  refine ⟨fun hs t1 t2 t3 h1 h2 h3 => ?_, execXnext_of_unseeded⟩
  rw [execXnext_of_seeded hs, xsNext_eq_of_chain h1 h2 h3]

end Sys2Proof.Machine

/-! ### IRANDBITS, XRANDBITS and the packers (42_bitpacker.md R150 to R156) -/

namespace Sys2Proof.Machine

/-- Every limb of an integer that is there holds its 64 bits (R11). -/
theorem eq_of_toLimbs_getElem? {limbs v i : Nat} {w : Word} (h : (toLimbs limbs v)[i]? = some w) :
    w = BitVec.ofNat 64 (v / 2 ^ (64 * i)) := by
  have hi : i < limbs := by simpa using (List.getElem?_eq_some_iff.1 h).1
  rw [toLimbs_getElem? limbs v i hi] at h
  exact (Option.some.inj h).symm

/-! ### The two commands, case by case (R155, R156) -/

/-- IRANDBITS with an illegal bit count changes only ERR, on a seeded and on an unseeded unit (R154, R212). -/
theorem execIrandbits_of_illegal {n : Nat} {s : State} (h : n = 0 ∨ 64 * s.limbs < n) :
    execIrandbits n s = .next (raise .arg s) := by
  rcases execIrandbits_cases n s with ⟨-, e⟩ | ⟨hn, -⟩ | ⟨hn, -⟩
  · exact e
  · omega
  · omega

/-- IRANDBITS with a legal bit count on an unseeded unit changes only ERR (R155, R214). -/
theorem execIrandbits_of_unseeded {n : Nat} {s : State} (h1 : 1 ≤ n) (hn : n ≤ 64 * s.limbs)
    (hs : s.status.iseeded = false) : execIrandbits n s = .next (raise .notseeded s) := by
  rcases execIrandbits_cases n s with ⟨hn', -⟩ | ⟨-, -, e⟩ | ⟨-, hs', -⟩
  · exact absurd ⟨h1, hn⟩ hn'
  · exact e
  · rw [hs] at hs'; cases hs'

/-- IRANDBITS with a legal bit count on a seeded unit is one PACK_HIGH (R153, R155). -/
theorem execIrandbits_of_seeded {n : Nat} {s : State} (h1 : 1 ≤ n) (hn : n ≤ 64 * s.limbs)
    (hs : s.status.iseeded = true) :
    execIrandbits n s = .next
      { s with big := toLimbs s.limbs (packHigh n s.isaac).1, isaac := (packHigh n s.isaac).2
               status := { s.status with err := .ok } } := by
  rcases execIrandbits_cases n s with ⟨hn', -⟩ | ⟨-, hs', -⟩ | ⟨-, -, e⟩
  · exact absurd ⟨h1, hn⟩ hn'
  · rw [hs] at hs'; cases hs'
  · exact e

/-- XRANDBITS with an illegal bit count changes only ERR, on a seeded and on an unseeded unit (R154, R212). -/
theorem execXrandbits_of_illegal {n : Nat} {s : State} (h : n = 0 ∨ 64 * s.limbs < n) :
    execXrandbits n s = .next (raise .arg s) := by
  rcases execXrandbits_cases n s with ⟨-, e⟩ | ⟨hn, -⟩ | ⟨hn, -⟩
  · exact e
  · omega
  · omega

/-- XRANDBITS with a legal bit count on an unseeded unit changes only ERR (R156, R214). -/
theorem execXrandbits_of_unseeded {n : Nat} {s : State} (h1 : 1 ≤ n) (hn : n ≤ 64 * s.limbs)
    (hs : s.status.xseeded = false) : execXrandbits n s = .next (raise .notseeded s) := by
  rcases execXrandbits_cases n s with ⟨hn', -⟩ | ⟨-, -, e⟩ | ⟨-, hs', -⟩
  · exact absurd ⟨h1, hn⟩ hn'
  · exact e
  · rw [hs] at hs'; cases hs'

/-- XRANDBITS with a legal bit count on a seeded unit is one PACK_LOW (R153, R156). -/
theorem execXrandbits_of_seeded {n : Nat} {s : State} (h1 : 1 ≤ n) (hn : n ≤ 64 * s.limbs)
    (hs : s.status.xseeded = true) :
    execXrandbits n s = .next
      { s with big := toLimbs s.limbs (packLow n s.xs).1, xs := (packLow n s.xs).2
               status := { s.status with err := .ok } } := by
  rcases execXrandbits_cases n s with ⟨hn', -⟩ | ⟨-, hs', -⟩ | ⟨-, -, e⟩
  · exact absurd ⟨h1, hn⟩ hn'
  · rw [hs] at hs'; cases hs'
  · exact e

/-! ### The packer's loop over any generator and chunk rule (R150) -/

/-- The chunk of `c` bits that the packer takes of a word is below `2 ^ c`. -/
def ChunkFits (chunk : Nat → Word → Nat) : Prop := ∀ c w, c ≤ 64 → chunk c w < 2 ^ c

section
variable {σ : Type} (next : σ → Word × σ) {chunk : Nat → Word → Nat}

/-- The accumulator a run starts with stands above the bits the run packs; the words drawn do not depend on it. -/
theorem packLoop_acc (hchunk : ChunkFits chunk) (fuel rem acc : Nat) (u : σ) (hrem : rem ≤ fuel) :
    packLoop next chunk fuel rem acc u =
      (acc * 2 ^ rem + (packLoop next chunk fuel rem 0 u).1, (packLoop next chunk fuel rem 0 u).2) := by
  induction fuel generalizing rem acc u with
  | zero =>
    obtain rfl : rem = 0 := by omega
    simp
  | succ fuel ih =>
    by_cases h0 : rem = 0
    · subst h0
      simp
    · have hv : chunk (min 64 rem) (next u).1 < 2 ^ min 64 rem := hchunk _ _ (Nat.min_le_left 64 rem)
      have hpow : 2 ^ min 64 rem * 2 ^ (rem - min 64 rem) = 2 ^ rem := by
        rw [← Nat.pow_add, Nat.add_sub_cancel' (Nat.min_le_right 64 rem)]
      have hle : rem - min 64 rem ≤ fuel := by omega
      rw [packLoop_step _ _ _ _ _ _ h0, packLoop_step _ _ _ _ _ _ h0, shift_or_chunk _ _ _ hv,
        shift_or_chunk _ _ _ hv, ih _ (acc * 2 ^ min 64 rem + _) _ hle, ih _ (0 * 2 ^ min 64 rem + _) _ hle,
        Nat.zero_mul, Nat.zero_add, Nat.add_mul, Nat.mul_assoc, hpow, Nat.add_assoc]

/-- At most 64 bits are one chunk of one word. -/
theorem packLoop_one_word (n : Nat) (u : σ) (h1 : 1 ≤ n) (hn : n ≤ 64) :
    packLoop next chunk n n 0 u = (chunk n (next u).1, (next u).2) := by
  obtain ⟨fuel, rfl⟩ : ∃ fuel, n = fuel + 1 := ⟨n - 1, by omega⟩
  rw [packLoop_step _ _ _ _ _ _ (by omega), Nat.min_eq_right hn, Nat.sub_self, packLoop_rem_zero, Nat.zero_shiftLeft,
    Nat.zero_or]

/-- More bits are a whole word above a run of the packer for the rest of them. -/
theorem packLoop_whole_word (hchunk : ChunkFits chunk) (n : Nat) (u : σ) :
    packLoop next chunk (64 + n) (64 + n) 0 u =
      (chunk 64 (next u).1 * 2 ^ n + (packLoop next chunk n n 0 (next u).2).1,
        (packLoop next chunk n n 0 (next u).2).2) := by
  have hfuel : 64 + n = 63 + n + 1 := by omega
  have hmin : min 64 (63 + n + 1) = 64 := by omega
  have hrest : 63 + n + 1 - 64 = n := by omega
  rw [hfuel, packLoop_step _ _ _ _ _ _ (by omega), hmin, hrest, Nat.zero_shiftLeft, Nat.zero_or,
    packLoop_fuel _ _ _ _ _ _ (by omega), packLoop_acc _ hchunk _ _ _ _ le_rfl]

end

theorem chunkHigh_fits : ChunkFits chunkHigh := chunkHigh_lt

theorem chunkLow_fits : ChunkFits chunkLow := fun c w _ => chunkLow_lt c w

/-- The high-order chunk as a quotient (R151). -/
theorem chunkHigh_eq_div (c : Nat) (w : Word) : chunkHigh c w = w.toNat / 2 ^ (64 - c) := by
  rw [chunkHigh, BitVec.toNat_ushiftRight, Nat.shiftRight_eq_div_pow]

/-- A high-order chunk of 64 bits is the whole word (R151). -/
@[simp] theorem chunkHigh_whole (w : Word) : chunkHigh 64 w = w.toNat := by
  rw [chunkHigh_eq_div, Nat.sub_self, Nat.pow_zero, Nat.div_one]

/-- A low-order chunk of 64 bits is the whole word (R152). -/
@[simp] theorem chunkLow_whole (w : Word) : chunkLow 64 w = w.toNat := Nat.mod_eq_of_lt w.isLt

/-- PACK_HIGH of at most 64 bits draws one word and takes its high-order bits (R151). -/
theorem packHigh_one_word (u : Isaac) (n : Nat) (h1 : 1 ≤ n) (hn : n ≤ 64) :
    packHigh n u = ((isaacNext u).1.toNat / 2 ^ (64 - n), (isaacNext u).2) := by
  rw [packHigh, packLoop_one_word _ _ _ h1 hn, chunkHigh_eq_div]

/-- PACK_HIGH of 64 bits and `n` more draws a whole word first (R151). -/
theorem packHigh_whole_word (u : Isaac) (n : Nat) :
    packHigh (64 + n) u =
      ((isaacNext u).1.toNat * 2 ^ n + (packHigh n (isaacNext u).2).1, (packHigh n (isaacNext u).2).2) := by
  rw [packHigh, packLoop_whole_word _ chunkHigh_fits, chunkHigh_whole, packHigh]

/-- PACK_LOW of at most 64 bits draws one word and takes its low-order bits (R152). -/
theorem packLow_one_word (x : Xorshift) (n : Nat) (h1 : 1 ≤ n) (hn : n ≤ 64) :
    packLow n x = ((xsNext x).1.toNat % 2 ^ n, (xsNext x).2) := by
  rw [packLow, packLoop_one_word _ _ _ h1 hn, chunkLow]

/-- PACK_LOW of 64 bits and `n` more draws a whole word first (R152). -/
theorem packLow_whole_word (x : Xorshift) (n : Nat) :
    packLow (64 + n) x =
      ((xsNext x).1.toNat * 2 ^ n + (packLow n (xsNext x).2).1, (packLow n (xsNext x).2).2) := by
  rw [packLow, packLoop_whole_word _ chunkLow_fits, chunkLow_whole, packLow]

/-! ### The obligations -/

/-- Settles O41: the three cases of IRANDBITS, BIG taking the limbs of PACK_HIGH's integer. -/
theorem irandbitsEffect : Obligations.IrandbitsEffect := by
  unfold Obligations.IrandbitsEffect
  intro s n
  rw [exec_irandbits]
  exact ⟨execIrandbits_of_illegal, execIrandbits_of_unseeded, fun h1 hn hs =>
    ⟨_, toLimbs_length _ _, fun _ _ => eq_of_toLimbs_getElem?, execIrandbits_of_seeded h1 hn hs⟩⟩

/-- Settles O42: the three cases of XRANDBITS, BIG taking the limbs of PACK_LOW's integer. -/
theorem xrandbitsEffect : Obligations.XrandbitsEffect := by
  unfold Obligations.XrandbitsEffect
  intro s n
  rw [exec_xrandbits]
  exact ⟨execXrandbits_of_illegal, execXrandbits_of_unseeded, fun h1 hn hs =>
    ⟨_, toLimbs_length _ _, fun _ _ => eq_of_toLimbs_getElem?, execXrandbits_of_seeded h1 hn hs⟩⟩

/-- Settles O43: the loop over one word, and over a whole word and the rest, for each end of the word. -/
theorem packerTakesWordsInOrder : Obligations.PackerTakesWordsInOrder := by
  unfold Obligations.PackerTakesWordsInOrder
  exact ⟨packHigh_one_word, fun u n _ => packHigh_whole_word u n, packLow_one_word,
    fun x n _ => packLow_whole_word x n⟩

end Sys2Proof.Machine

/-! ### The primality oracle (43_primality.md R171 to R178) -/

namespace Sys2Proof.Machine

/-! ### MODEXP (R172) -/

/-- Square-and-multiply keeps `acc * b ^ e` modulo `n`; the fuel covers the bits of `e`. -/
theorem modexpLoop_mod (n fuel b e acc : Nat) (he : e < 2 ^ fuel) :
    modexpLoop n fuel b e acc % n = acc * b ^ e % n := by
  induction fuel generalizing b e acc with
  | zero =>
    obtain rfl : e = 0 := by omega
    simp
  | succ fuel ih =>
    by_cases h0 : e = 0
    · subst h0
      simp
    · have hhalf : e / 2 < 2 ^ fuel := by omega
      have hsq : b ^ e = b ^ (e % 2) * (b * b) ^ (e / 2) := by
        rw [← pow_two, ← pow_mul, ← pow_add, Nat.mod_add_div]
      rw [modexpLoop_succ _ _ _ _ _ h0, ih _ _ _ hhalf, Nat.mul_mod, ← Nat.pow_mod, hsq, ← Nat.mul_assoc]
      rcases Nat.mod_two_eq_zero_or_one e with hbit | hbit
      · rw [if_neg (by omega), hbit, pow_zero, Nat.mul_one, ← Nat.mul_mod]
      · rw [if_pos hbit, hbit, pow_one, Nat.mod_mod, ← Nat.mul_mod]

/-- A reduced accumulator stays reduced. -/
theorem modexpLoop_reduced (n fuel b e acc : Nat) (hacc : acc % n = acc) :
    modexpLoop n fuel b e acc % n = modexpLoop n fuel b e acc := by
  induction fuel generalizing b e acc with
  | zero => exact hacc
  | succ fuel ih =>
    by_cases h0 : e = 0
    · subst h0
      simpa using hacc
    · rw [modexpLoop_succ _ _ _ _ _ h0]
      refine ih _ _ _ ?_
      split
      · exact Nat.mod_mod _ _
      · exact hacc

/-- MODEXP is the power modulo `n` (R172). -/
theorem modexp_eq (a e n : Nat) : modexp a e n = a ^ e % n := by
  have hbits : e < 2 ^ (e.log2 + 1) := Nat.lt_log2_self
  rw [modexp, ← modexpLoop_reduced _ _ _ _ _ (Nat.mod_mod 1 n), modexpLoop_mod _ _ _ _ _ hbits, Nat.mul_mod,
    Nat.mod_mod, ← Nat.pow_mod, ← Nat.mul_mod, Nat.one_mul]

/-! ### DECOMPOSE (R174) -/

/-- The loop counts the factors 2 in front of an odd number. -/
theorem trailingZeros_two_pow_mul {r s fuel : Nat} (hs : s % 2 = 1) (hr : r ≤ fuel) :
    trailingZeros fuel (2 ^ r * s) = r := by
  induction r generalizing fuel with
  | zero => cases fuel <;> simp [trailingZeros, hs]
  | succ r ih =>
    obtain ⟨fuel, rfl⟩ : ∃ f, fuel = f + 1 := ⟨fuel - 1, by omega⟩
    have heven : 2 ^ (r + 1) * s = 2 * (2 ^ r * s) := by ring
    rw [heven, trailingZeros, if_pos (Nat.mul_mod_right 2 _), Nat.mul_div_cancel_left _ two_pos, ih (by omega)]

/-- DECOMPOSE finds the exponent and the odd part (R174), so a number has only one such decomposition. -/
theorem decompose_two_pow_mul {r s : Nat} (hs : s % 2 = 1) : decompose (2 ^ r * s) = (r, s) := by
  have hpos : 0 < 2 ^ r := Nat.two_pow_pos r
  have hle : 2 ^ r ≤ 2 ^ r * s := Nat.le_mul_of_pos_right _ (by omega)
  have hfuel : r ≤ (2 ^ r * s).log2 := (Nat.le_log2 (by omega)).2 hle
  simp only [decompose, trailingZeros_two_pow_mul hs hfuel, Nat.shiftRight_eq_div_pow, Nat.mul_div_cancel_left s hpos]

/-- Every number but 0 is a power of two times an odd number. -/
theorem exists_two_pow_mul {m : Nat} (h : m ≠ 0) : ∃ r s, s % 2 = 1 ∧ m = 2 ^ r * s := by
  obtain ⟨r, s, hs, hm⟩ := Nat.exists_eq_two_pow_mul_odd h
  exact ⟨r, s, Nat.odd_iff.1 hs, hm⟩

/-- The decomposition of an even number has a factor 2 (R174). -/
theorem one_le_of_two_pow_mul_even {r s : Nat} (hs : s % 2 = 1) (heven : 2 ^ r * s % 2 = 0) : 1 ≤ r := by
  rcases Nat.eq_zero_or_pos r with rfl | hr
  · omega
  · exact hr

/-! ### One trial (R173, R175) -/

/-- The model's Fermat trial passes as R173 defines it. -/
theorem fermatTrial_iff (n a : Nat) : fermatTrial n a = true ↔ FermatPasses n a := by
  rw [fermatTrial, beq_iff_eq, modexp_eq, FermatPasses]

/-- R175's inner loop looks at the first `j` squarings. -/
theorem reachesMinusOne_iff (n j x : Nat) :
    reachesMinusOne n j x = true ↔ ∃ i < j, x ^ 2 ^ (i + 1) % n = n - 1 := by
  induction j generalizing x with
  | zero => simp [reachesMinusOne]
  | succ j ih =>
    have hsq (i : Nat) : (x * x % n) ^ 2 ^ (i + 1) % n = x ^ 2 ^ (i + 1 + 1) % n := by
      rw [← Nat.pow_mod, ← pow_two, ← pow_mul, ← pow_succ' 2]
    simp only [reachesMinusOne, Bool.or_eq_true, beq_iff_eq, ih, hsq, Nat.exists_lt_succ_left, zero_add, pow_one, pow_two]

/-- The model's Miller–Rabin trial for a given decomposition of n - 1 (R175). -/
theorem mrTrial_iff_of_decomposition {n r s : Nat} (a : Nat) (hr : 1 ≤ r) (hs : s % 2 = 1) (hn : n - 1 = 2 ^ r * s) :
    mrTrial n a = true ↔ a ^ s % n = 1 ∨ ∃ i < r, a ^ (2 ^ i * s) % n = n - 1 := by
  obtain ⟨r, rfl⟩ : ∃ r', r = r' + 1 := ⟨r - 1, by omega⟩
  have hsq (i : Nat) : (a ^ s % n) ^ 2 ^ (i + 1) % n = a ^ (2 ^ (i + 1) * s) % n := by
    rw [← Nat.pow_mod, ← pow_mul, Nat.mul_comm s]
  simp only [mrTrial, hn, decompose_two_pow_mul hs, modexp_eq, Bool.or_eq_true, beq_iff_eq, reachesMinusOne_iff, hsq,
    Nat.exists_lt_succ_left, Nat.add_sub_cancel, pow_zero, Nat.one_mul, or_assoc]

/-- The model's Miller–Rabin trial of an odd number passes as R175 defines it. -/
theorem mrTrial_iff {n : Nat} (h5 : 5 ≤ n) (hodd : n % 2 = 1) (a : Nat) :
    mrTrial n a = true ↔ MillerRabinPasses n a := by
  have hr {r s : Nat} (hn : n - 1 = 2 ^ r * s) (hs : s % 2 = 1) : 1 ≤ r :=
    one_le_of_two_pow_mul_even hs (by omega)
  constructor
  · intro h
    obtain ⟨r, s, hs, hn⟩ := exists_two_pow_mul (show n - 1 ≠ 0 by omega)
    exact ⟨r, s, hn, hs, (mrTrial_iff_of_decomposition a (hr hn hs) hs hn).1 h⟩
  · rintro ⟨r, s, hn, hs, h⟩
    exact (mrTrial_iff_of_decomposition a (hr hn hs) hs hn).2 h

/-! ### The trials of one test (R176) -/

/-- The number of the base source's next call when `t` trials are done: only drawn bases count (R176). -/
def drawsAfter (s : State) (t : Nat) : Nat :=
  if s.oracle.fixb then s.env.baseDraws else s.env.baseDraws + t

@[simp] theorem drawsAfter_zero (s : State) : drawsAfter s 0 = s.env.baseDraws := by
  simp [drawsAfter]

/-- GETBASE of trial `t` gives that trial's base (R176). -/
theorem getBase_inRange {s : State} {n : Nat} (h : ¬baseOutOfRange s n) (t : Nat) :
    getBase s.oracle n (drawsAfter s t) = .ok (trialBase s n t, drawsAfter s (t + 1)) := by
  rcases getBase_cases s.oracle n (drawsAfter s t) with ⟨hf, e⟩ | ⟨hf, hout, -⟩ | ⟨hf, -, e⟩
  · rw [e]
    simp [drawsAfter, trialBase, hf, Nat.add_assoc]
  · exact absurd ⟨hf, hout⟩ h
  · rw [e]
    simp [drawsAfter, trialBase, hf]

/-- GETBASE with a fixed base out of range (R176). -/
theorem getBase_outOfRange {s : State} {n : Nat} (h : baseOutOfRange s n) (d : Nat) :
    getBase s.oracle n d = .error .baserange := by
  obtain ⟨hfix, hout⟩ := h
  rcases getBase_cases s.oracle n d with ⟨hf, -⟩ | ⟨-, -, e⟩ | ⟨-, hin, -⟩
  · rw [hfix] at hf; cases hf
  · exact e
  · exact absurd hout hin

/-- Everything `m` trials from trial `t` on can do: all pass, or they stop after the first that fails (R173, R175). -/
theorem runTrials_cases {s : State} {n : Nat} (hb : ¬baseOutOfRange s n) (trial : Nat → Bool) (m t : Nat) :
    ((∀ i < m, trial (trialBase s n (t + i)) = true)
        ∧ runTrials s.oracle n trial m (drawsAfter s t) = .ok (true, drawsAfter s (t + m)))
      ∨ ∃ j < m, (∀ i < j, trial (trialBase s n (t + i)) = true) ∧ trial (trialBase s n (t + j)) = false
          ∧ runTrials s.oracle n trial m (drawsAfter s t) = .ok (false, drawsAfter s (t + (j + 1))) := by
  induction m generalizing t with
  | zero => exact .inl ⟨by simp, rfl⟩
  | succ m ih =>
    rw [runTrials_ok _ _ _ _ _ _ _ (getBase_inRange hb t)]
    have hshift (i : Nat) : t + 1 + i = t + (i + 1) := by omega
    cases hfirst : trial (trialBase s n t) with
    | false => exact .inr ⟨0, by omega, by simp, hfirst, rfl⟩
    | true =>
      have hrest := ih (t + 1)
      simp only [hshift] at hrest
      rcases hrest with ⟨hall, e⟩ | ⟨j, hj, hpass, hfail, e⟩
      · exact .inl ⟨Nat.forall_lt_succ_left.2 ⟨hfirst, hall⟩, e⟩
      · exact .inr ⟨j + 1, by omega, Nat.forall_lt_succ_left.2 ⟨hfirst, hpass⟩, hfail, e⟩

/-! ### What a test leaves (R177, R178) -/

/-- The numbers 2 and 3 are prime by the guards (R173, R175, R179). -/
theorem finishTest_smallPrime (s : State) (trial : Nat → Nat → Bool) {n : Nat} (hp : n = 2 ∨ n = 3) :
    finishTest (primalityTest s.oracle trial n s.env.baseDraws) s =
      { s with res := 1, status := { s.status with err := .ok } } := by
  rw [primalityTest_guard _ _ _ _ (.inl (by omega)), decide_eq_true hp]
  rfl

/-- Any other number below 5 or even is not prime by the guards (R173, R175, R179). -/
theorem finishTest_smallOrEven (s : State) (trial : Nat → Nat → Bool) {n : Nat} (h : n < 5 ∨ n % 2 = 0)
    (hp : ¬(n = 2 ∨ n = 3)) :
    finishTest (primalityTest s.oracle trial n s.env.baseDraws) s =
      { s with res := 0, status := { s.status with err := .ok } } := by
  rw [primalityTest_guard _ _ _ _ h, decide_eq_false hp]
  rfl

/-- A first trial with a fixed base out of range ends the test; only ERR changes (R176, R214). -/
theorem finishTest_outOfRange {s : State} (trial : Nat → Nat → Bool) {n : Nat} (h5 : 5 ≤ n) (hodd : n % 2 = 1)
    (hk : s.oracle.k ≠ 0) (hb : baseOutOfRange s n) :
    finishTest (primalityTest s.oracle trial n s.env.baseDraws) s = raise .baserange s := by
  have hpos : s.oracle.k.toNat ≠ 0 := fun h => hk (BitVec.eq_of_toNat_eq h)
  obtain ⟨m, hm⟩ := Nat.exists_eq_succ_of_ne_zero hpos
  rw [primalityTest_odd _ _ _ _ h5 hodd, hm, runTrials, getBase_outOfRange hb]
  rfl

/-- A test whose bases are in range writes to RES whether every trial passes (R173, R175). -/
theorem finishTest_inRange {s : State} {trial : Nat → Nat → Bool} {n : Nat} {passes : Nat → Prop}
    (htrial : ∀ a, trial n a = true ↔ passes a) (h5 : 5 ≤ n) (hodd : n % 2 = 1) (hb : ¬baseOutOfRange s n) :
    ∃ (v : Word) (d : Nat),
      finishTest (primalityTest s.oracle trial n s.env.baseDraws) s =
          { s with res := v, status := { s.status with err := .ok }, env := { s.env with baseDraws := d } }
        ∧ (v = 1 ∨ v = 0) ∧ (v = 1 ↔ ∀ t < s.oracle.k.toNat, passes (trialBase s n t)) := by
  have hruns := runTrials_cases hb (trial n) s.oracle.k.toNat 0
  simp only [Nat.zero_add, drawsAfter_zero] at hruns
  rw [primalityTest_odd _ _ _ _ h5 hodd]
  rcases hruns with ⟨hall, e⟩ | ⟨j, hj, -, hfail, e⟩
  · exact ⟨1, _, by rw [e]; rfl, .inl rfl, iff_of_true rfl fun t ht => (htrial _).1 (hall t ht)⟩
  · refine ⟨0, _, by rw [e]; rfl, .inr rfl, iff_of_false (by decide) fun hall => ?_⟩
    exact absurd ((htrial _).2 (hall j hj)) (Bool.eq_false_iff.1 hfail)

/-! ### The obligations -/

/-- Settles O47: square-and-multiply computes the power modulo `n`. -/
theorem modexpIsExact : Obligations.ModexpIsExact := by
  unfold Obligations.ModexpIsExact
  intro a e n
  rw [modexp_eq]
  exact ⟨rfl, Nat.mod_lt _⟩

/-- Settles O48: `m` is some `2 ^ r * s` with `s` odd, and DECOMPOSE finds this `r`, not 0 as `m` is even, and `s`. -/
theorem decomposeIsExact : Obligations.DecomposeIsExact := by
  unfold Obligations.DecomposeIsExact
  intro m heven h4
  obtain ⟨r, s, hs, rfl⟩ := exists_two_pow_mul (show m ≠ 0 by omega)
  rw [decompose_two_pow_mul hs]
  exact ⟨rfl, hs, one_le_of_two_pow_mul_even hs heven⟩

/-- Settles O49: the guards, and the K trials by R173's definition. -/
theorem fermatEffect : Obligations.FermatEffect := by
  unfold Obligations.FermatEffect
  rintro s n rfl
  simp only [exec_fermat, execFermat, fermatTest, Host.Outcome.next.injEq]
  exact ⟨fun h => finishTest_smallOrEven s _ (by omega) (by omega), finishTest_smallPrime s _,
    fun h4 heven => finishTest_smallOrEven s _ (.inr heven) (by omega), finishTest_outOfRange _,
    finishTest_inRange (fermatTrial_iff _)⟩

/-- Settles O50: the guards, and the K trials by R175's definition. -/
theorem millerRabinEffect : Obligations.MillerRabinEffect := by
  unfold Obligations.MillerRabinEffect
  rintro s n rfl
  simp only [exec_millerrabin, execMillerrabin, mrTest, Host.Outcome.next.injEq]
  exact ⟨fun h => finishTest_smallOrEven s _ (by omega) (by omega), finishTest_smallPrime s _,
    fun h4 heven => finishTest_smallOrEven s _ (.inr heven) (by omega), finishTest_outOfRange _,
    fun h5 hodd => finishTest_inRange (mrTrial_iff h5 hodd) h5 hodd⟩

/-- Settles O28: the two cases of OCFG. -/
theorem ocfgEffect : Obligations.OcfgEffect := by
  unfold Obligations.OcfgEffect
  intro s k f hk
  rw [exec_ocfg]
  rcases execOcfg_cases k f s with ⟨h0, e⟩ | ⟨hne, e⟩
  · exact ⟨fun h => absurd h0 h, fun _ => e⟩
  · exact ⟨fun _ => ⟨_, by rw [BitVec.toNat_ofNat, Nat.mod_eq_of_lt (by omega)], e⟩, fun h => absurd h hne⟩

end Sys2Proof.Machine

/-! ### NOP and its word (44_control.md R203) -/

namespace Sys2Proof.Machine

/-- The all-zero word is the one whose fields are all 0. -/
theorem joinFields_eq_zero {r1 : BitVec 32} {i : BitVec 16} {r0 : BitVec 7} {f : Bool} {o : BitVec 8} :
    joinFields r1 i r0 f o = 0 ↔ r1 = 0 ∧ i = 0 ∧ r0 = 0 ∧ f = false ∧ o = 0 := by
  have hzero : (0 : Word) = joinFields 0 0 0 false 0 := by decide
  rw [hzero, joinFields_inj]

/-- OP = 0x00 has one legal word: a nonzero reserved field, F or IMM16 makes it illegal (R86, R203). -/
theorem decodeCommand_of_opField_zero {w : Word} (hop : opField w = 0x00) :
    decodeCommand w = if w = 0 then .ok .nop else .error .illegalCommand := by
  rw [← joinFields_fields w, hop, decodeCommand_joinFields]
  simp only [joinFields_eq_zero]
  by_cases hrsv : rsv1Field w = 0 ∧ rsv0Field w = 0
  · by_cases hf : flagField w = true
    · simp [hrsv, hf]
    · by_cases himm : immBits w = 0 <;> simp [hrsv, hf, himm]
  · rw [if_pos hrsv, if_neg fun ⟨h1, _, h0, _⟩ => hrsv ⟨h1, h0⟩]

/-! ### The obligations -/

/-- Settles O27: NOP only succeeds, and of the words with OP = 0x00 only the all-zero one is legal. -/
theorem nopEffect : Obligations.NopEffect := by
  unfold Obligations.NopEffect
  refine ⟨fun s => exec_nop s, ?_, fun w hop hne => ?_⟩
  · exact decodeCommand_of_opField_zero rfl
  · rw [decodeCommand_of_opField_zero hop, if_neg hne]

end Sys2Proof.Machine

/-! ### Reset and the idle block (70_reset_and_hazards.md R241) -/

namespace Sys2Proof.Machine

/-- With no command latched the engine's turn changes nothing (R200). -/
theorem engineTurn_idle {s : State} (hidle : s.status.busy = false) : engineTurn s = .next s := by
  rcases engineTurn_cases s with ⟨-, e⟩ | ⟨hbusy, -⟩ | ⟨hbusy, -⟩
  · exact e
  · cases hidle.symm.trans hbusy
  · cases hidle.symm.trans hbusy

/-- The idle block with no input to come waits: its step is an engine turn that changes nothing (R241). -/
theorem step_idle {s : State} (hin : s.env.inputs = []) (hidle : s.status.busy = false) : step s = .next s := by
  have hturn : step s = engineTurn s := by simp only [step, hin]
  exact hturn.trans (engineTurn_idle hidle)

/-- NUM has LIMBS elements after reset, whatever they hold (R37, R241). -/
@[simp] theorem afterReset_num_length (limbs : Nat) (env : Env) : (State.afterReset limbs env).num.length = limbs := by
  simp [State.afterReset]

/-- BIG has LIMBS elements after reset, whatever they hold (R38, R241). -/
@[simp] theorem afterReset_big_length (limbs : Nat) (env : Env) : (State.afterReset limbs env).big.length = limbs := by
  simp [State.afterReset]

/-- Reset clears every field of STATUS, and its word has no other bit (R24, R241). -/
theorem afterReset_status_word (limbs : Nat) (env : Env) : (State.afterReset limbs env).status.word = 0 := by
  have hclear : Status.word ⟨false, .ok, false, false, false, false⟩ = 0 := by decide
  exact hclear

/-! ### The obligations -/

/-- Settles O13: the rows of R241 are the fields of the state after reset; the arrays' sizes and the wait, for any PEND,
are lemmas. -/
theorem stateAfterReset : Obligations.StateAfterReset := by
  unfold Obligations.StateAfterReset
  intro limbs env s
  refine ⟨afterReset_status_word limbs env, rfl, rfl, rfl, rfl, rfl, rfl, ?_⟩
  refine ⟨rfl, rfl, rfl, rfl, rfl, rfl, rfl, rfl, rfl, rfl, rfl, rfl, rfl, ?_⟩
  exact ⟨afterReset_num_length limbs env, afterReset_big_length limbs env, fun hin _ => step_idle hin rfl⟩

end Sys2Proof.Machine

/-! ### The state map of XS_NEXT is a bijection that fixes (0, 0) (41_xorshift128plus.md R136, R137) -/

namespace Sys2Proof.Machine

/-- `s ^ (s << n)` gives `s` back, from bit 0 upward: bit `i` is `s[i] ^ s[i - n]` (R136). -/
theorem xor_shiftLeft_injective {n : Nat} (hn : 0 < n) : Function.Injective fun s : Word => s ^^^ s <<< n := by
  intro s t h
  refine BitVec.eq_of_getLsbD_eq fun i => ?_
  induction i using Nat.strong_induction_on with
  | _ i ih =>
    intro hi
    have hbit := congrArg (·.getLsbD i) h
    simp only [BitVec.getLsbD_xor, BitVec.getLsbD_shiftLeft, hi, decide_true, Bool.true_and] at hbit
    by_cases hlow : i < n
    · simpa [hlow] using hbit
    · have hprev : s.getLsbD (i - n) = t.getLsbD (i - n) := ih (i - n) (by omega) (by omega)
      rw [hprev] at hbit
      exact Bool.xor_left_inj.1 hbit

/-- `u ^ (u >> n)` gives `u` back, from bit 63 downward: bit `i` is `u[i] ^ u[i + n]` (R136). -/
theorem xor_shiftRight_injective {n : Nat} (hn : 0 < n) : Function.Injective fun u : Word => u ^^^ u >>> n := by
  intro u v h
  have hdown : ∀ d i, 64 ≤ i + d → u.getLsbD i = v.getLsbD i := by
    intro d
    induction d using Nat.strong_induction_on with
    | _ d ih =>
      intro i hd
      by_cases hi : 64 ≤ i
      · rw [BitVec.getLsbD_of_ge u i hi, BitVec.getLsbD_of_ge v i hi]
      · have hbit := congrArg (·.getLsbD i) h
        simp only [BitVec.getLsbD_xor, BitVec.getLsbD_ushiftRight] at hbit
        have hnext : u.getLsbD (n + i) = v.getLsbD (n + i) := ih (d - 1) (by omega) (n + i) (by omega)
        rw [hnext] at hbit
        exact Bool.xor_left_inj.1 hbit
  exact BitVec.eq_of_getLsbD_eq fun i _ => hdown 64 i (by omega)

theorem xor_shiftLeft_bijective {n : Nat} (hn : 0 < n) : Function.Bijective fun s : Word => s ^^^ s <<< n :=
  Finite.injective_iff_bijective.1 (xor_shiftLeft_injective hn)

theorem xor_shiftRight_bijective {n : Nat} (hn : 0 < n) : Function.Bijective fun u : Word => u ^^^ u >>> n :=
  Finite.injective_iff_bijective.1 (xor_shiftRight_injective hn)

/-- L is the first half followed by the second (R136). -/
theorem xsL_bijective : Function.Bijective xsL :=
  (xor_shiftRight_bijective (n := 17) (by decide)).comp (xor_shiftLeft_bijective (n := 23) (by decide))

@[simp] theorem xsL_zero : xsL 0 = 0 := by decide

/-- Only 0 is mapped to 0 by L. -/
theorem xsL_eq_zero {s : Word} : xsL s = 0 ↔ s = 0 :=
  ⟨fun h => xsL_bijective.injective (h.trans xsL_zero.symm), fun h => h ▸ xsL_zero⟩

/-- The inverse of XS_NEXT's state map, as an equation for each word (R136). -/
theorem xsNext_state_eq_iff {x p : Xorshift} :
    (xsNext x).2 = p ↔ x.s1 = p.s0 ∧ xsL x.s0 = (p.s1 - p.s0) ^^^ p.s0 := by
  obtain ⟨p0, p1⟩ := p
  have hword : (xsL x.s0 ^^^ x.s1) + x.s1 = p1 ↔ xsL x.s0 = (p1 - x.s1) ^^^ x.s1 := by
    constructor
    · rintro rfl
      rw [BitVec.add_sub_cancel, BitVec.xor_assoc, BitVec.xor_self, BitVec.xor_zero]
    · intro h
      rw [h, BitVec.xor_assoc, BitVec.xor_self, BitVec.xor_zero, BitVec.sub_add_cancel]
  simp only [xsNext, Xorshift.mk.injEq]
  constructor
  · rintro ⟨rfl, h⟩
    exact ⟨rfl, hword.1 h⟩
  · rintro ⟨rfl, h⟩
    exact ⟨rfl, hword.2 h⟩

/-- XS_NEXT's state map has an inverse because L has one (R136). -/
theorem xsNext_state_bijective : Function.Bijective fun x : Xorshift => (xsNext x).2 := by
  constructor
  · intro x y h
    obtain ⟨hx1, hx0⟩ := xsNext_state_eq_iff.1 h
    obtain ⟨hy1, hy0⟩ := xsNext_state_eq_iff.1 (rfl : (xsNext y).2 = _)
    obtain ⟨x0, x1⟩ := x
    obtain ⟨y0, y1⟩ := y
    rw [Xorshift.mk.injEq]
    exact ⟨xsL_bijective.injective (hx0.trans hy0.symm), hx1.trans hy1.symm⟩
  · intro p
    obtain ⟨s0, hs0⟩ := xsL_bijective.surjective ((p.s1 - p.s0) ^^^ p.s0)
    exact ⟨{ s0 := s0, s1 := p.s0 }, xsNext_state_eq_iff.2 ⟨rfl, hs0⟩⟩

/-- Only (0, 0) is stepped to (0, 0) (R136). -/
theorem xsNext_state_eq_zero {x : Xorshift} :
    (xsNext x).2 = { s0 := 0, s1 := 0 } ↔ x = { s0 := 0, s1 := 0 } := by
  obtain ⟨s0, s1⟩ := x
  rw [xsNext_state_eq_iff, Xorshift.mk.injEq, and_comm]
  exact and_congr_left' xsL_eq_zero

/-- So a unit away from (0, 0) stays away from it (R136). -/
theorem afterXsWords_ne_zero {x : Xorshift} (h : x ≠ { s0 := 0, s1 := 0 }) (j : Nat) :
    afterXsWords j x ≠ { s0 := 0, s1 := 0 } := by
  induction j with
  | zero => exact h
  | succ j ih =>
    rw [afterXsWords_succ]
    exact fun e => ih (xsNext_state_eq_zero.1 e)

/-! ### The obligations -/

/-- Settles O31: both shifts are recovered bit by bit, and the state map is inverted word by word. -/
theorem xorshiftNeverDegenerates : Obligations.XorshiftNeverDegenerates := by
  unfold Obligations.XorshiftNeverDegenerates
  exact ⟨xor_shiftLeft_bijective (by decide), xor_shiftRight_bijective (by decide), xsL_bijective, xsL_zero,
    fun _ => rfl, xsNext_state_bijective, fun _ _ => xsNext_state_eq_iff.1, fun _ => xsNext_state_eq_zero,
    fun _ j h => afterXsWords_ne_zero h j⟩

/-- Settles O32: the word is L(s0) ^ L(s0), and the state stays valid because the one before was. -/
theorem xorshiftMayReturnZero : Obligations.XorshiftMayReturnZero := by
  unfold Obligations.XorshiftMayReturnZero
  intro s0 h x
  refine ⟨BitVec.xor_self, fun e => h ?_⟩
  exact congrArg Xorshift.s0 (xsNext_state_eq_zero.1 e)

end Sys2Proof.Machine

/-! ### Words and records round trip (30_encoding.md R84 to R89) -/

namespace Sys2Proof

theorem fitsImm16_iff {n : Nat} : fitsImm16 n = true ↔ n ≤ 65535 := decide_eq_true_iff

/-- IMM16 as a number fits its field (R82). -/
theorem imm16Field_le (w : Word) : imm16Field w ≤ 65535 := Nat.le_of_lt_succ (immBits w).isLt

theorem imm16Field_eq_zero {w : Word} : imm16Field w = 0 ↔ immBits w = 0 :=
  (BitVec.toNat_eq (x := immBits w) (y := 0)).symm

/-- A word with no reserved bit set is the code of its operand fields (R89). -/
theorem commandWord_of_fields {w : Word} (hr1 : rsv1Field w = 0) (hr0 : rsv0Field w = 0) :
    commandWord (opField w) (imm16Field w) (flagField w) = w := by
  have himm : BitVec.ofNat 16 (imm16Field w) = immBits w := (BitVec.ofNat_toNat 16 _).trans (BitVec.setWidth_eq _)
  rw [commandWord_eq _ _ _ (imm16Field_le w), himm]
  conv_rhs => rw [← joinFields_fields w, hr1, hr0]

/-- The word a row without operand selects (R84). -/
theorem commandWord_of_maskNone {w : Word} {p : BitVec 8} (h : w &&& maskNone = p.setWidth 64) :
    commandWord p 0 false = w := by
  rw [pattern_eq, ← joinFields_fields w, selects_none] at h
  obtain ⟨hr1, hi, hr0, hf, rfl⟩ := h
  rw [← hf, ← imm16Field_eq_zero.2 hi, commandWord_of_fields hr1 hr0]

/-- The words a row with IMM16 selects (R84). -/
theorem commandWord_of_maskImm16 {w : Word} {p : BitVec 8} (h : w &&& maskImm16 = p.setWidth 64) :
    commandWord p (imm16Field w) false = w := by
  rw [pattern_eq, ← joinFields_fields w, selects_imm16] at h
  obtain ⟨hr1, hr0, hf, rfl⟩ := h
  rw [← hf, commandWord_of_fields hr1 hr0]

/-- The words a row with IMM16 and F selects (R84). -/
theorem commandWord_of_maskImm16F {w : Word} {p : BitVec 8} (h : w &&& maskImm16F = p.setWidth 64) :
    commandWord p (imm16Field w) (flagField w) = w := by
  rw [pattern_eq, ← joinFields_fields w, selects_imm16F] at h
  obtain ⟨hr1, hr0, rfl⟩ := h
  rw [commandWord_of_fields hr1 hr0]

/-- A word that selects a row is the code of the row's instruction (R84, R89). -/
theorem encode_operands {r : Row} {w : Word} (hr : r ∈ opcodeRows) (h : w &&& r.mask = r.pattern) :
    encode (r.operands w) = .command w ∧ (r.operands w).wellFormed = true := by
  have himm := fitsImm16_iff.2 (imm16Field_le w)
  simp only [opcodeRows, List.mem_cons, List.not_mem_nil, or_false] at hr
  rcases hr with rfl | rfl | rfl | rfl | rfl | rfl | rfl | rfl | rfl | rfl
  · exact ⟨congrArg Code.command (commandWord_of_maskNone (p := 0x00) h), rfl⟩
  · exact ⟨congrArg Code.command (commandWord_of_maskImm16 (p := 0x01) h), himm⟩
  · exact ⟨congrArg Code.command (commandWord_of_maskNone (p := 0x02) h), rfl⟩
  · exact ⟨congrArg Code.command (commandWord_of_maskImm16 (p := 0x03) h), himm⟩
  · exact ⟨congrArg Code.command (commandWord_of_maskNone (p := 0x08) h), rfl⟩
  · exact ⟨congrArg Code.command (commandWord_of_maskNone (p := 0x09) h), rfl⟩
  · exact ⟨congrArg Code.command (commandWord_of_maskImm16 (p := 0x0A) h), himm⟩
  · exact ⟨congrArg Code.command (commandWord_of_maskImm16F (p := 0x10) h), himm⟩
  · exact ⟨congrArg Code.command (commandWord_of_maskNone (p := 0x11) h), rfl⟩
  · exact ⟨congrArg Code.command (commandWord_of_maskNone (p := 0x12) h), rfl⟩

/-- The row DECODE finds is a row of the table that the word selects (R86). -/
theorem row_of_find {r : Row} {w : Word} (h : opcodeRows.find? (·.selects w) = some r) :
    r ∈ opcodeRows ∧ w &&& r.mask = r.pattern := by
  have hsel : r.selects w = true := List.find?_some (p := fun q : Row => q.selects w) h
  exact ⟨List.mem_of_find?_eq_some h, beq_iff_eq.1 hsel⟩

/-- Two rows that one word selects agree in every bit that both fix. -/
theorem not_exclusive_of_selects {r q : Row} {w : Word} (hr : w &&& r.mask = r.pattern)
    (hq : w &&& q.mask = q.pattern) : (r.mask &&& q.mask) &&& (r.pattern ^^^ q.pattern) = 0 := by
  rw [← hr, ← hq]
  refine BitVec.eq_of_getLsbD_eq fun i _ => ?_
  simp only [BitVec.getLsbD_and, BitVec.getLsbD_xor]
  cases r.mask.getLsbD i <;> cases q.mask.getLsbD i <;> simp

/-- A word selects at most one row (R84). -/
theorem row_unique {r q : Row} {w : Word} (hr : r ∈ opcodeRows) (hq : q ∈ opcodeRows)
    (hrw : w &&& r.mask = r.pattern) (hqw : w &&& q.mask = q.pattern) : r = q := by
  by_contra hne
  have : Std.Symm fun r q : Row => ¬(w &&& r.mask = r.pattern ∧ w &&& q.mask = q.pattern) :=
    ⟨fun _ _ h hqr => h hqr.symm⟩
  have hexcl : opcodeRows.Pairwise fun r q => ¬(w &&& r.mask = r.pattern ∧ w &&& q.mask = q.pattern) :=
    opcodeRows_exclusive.imp fun h hrq => h (not_exclusive_of_selects hrq.1 hrq.2)
  exact hexcl.forall hr hq hne ⟨hrw, hqw⟩

/-- The row a word selects decides its decoding, wherever the row stands in the table (R84, R86). -/
theorem decodeCommand_of_row {r : Row} {w : Word} (hr : r ∈ opcodeRows) (h : w &&& r.mask = r.pattern) :
    decodeCommand w = .ok (r.operands w) := by
  unfold decodeCommand
  cases hfind : opcodeRows.find? (·.selects w) with
  | none => exact absurd (beq_iff_eq.2 h) (List.find?_eq_none.1 hfind r hr)
  | some q =>
    obtain ⟨hq, hqw⟩ := row_of_find hfind
    rw [row_unique hr hq h hqw]

/-- A word that decodes selects a row (R86). -/
theorem row_of_decodeCommand {w : Word} {i : Instr} (h : decodeCommand w = .ok i) :
    ∃ r ∈ opcodeRows, w &&& r.mask = r.pattern ∧ r.operands w = i := by
  unfold decodeCommand at h
  cases hfind : opcodeRows.find? (·.selects w) with
  | none => rw [hfind] at h; cases h
  | some r =>
    rw [hfind] at h
    obtain ⟨hr, hw⟩ := row_of_find hfind
    exact ⟨r, hr, hw, Except.ok.inj h⟩

/-- A command word that decodes is the code of its instruction. -/
theorem encode_of_decodeCommand {w : Word} {i : Instr} (h : decodeCommand w = .ok i) :
    encode i = .command w ∧ i.wellFormed = true := by
  obtain ⟨r, hr, hw, rfl⟩ := row_of_decodeCommand h
  exact encode_operands hr hw

/-! ### Records (R88) -/

theorem decodeRecord_write {r : Record} (h : txnWrite r = true) : decodeRecord r = .ok (.hwr (txnAddr r) (txnData r)) :=
  if_pos h

theorem decodeRecord_read {r : Record} (h : txnWrite r = false) (hd : txnData r = 0) :
    decodeRecord r = .ok (.hrd (txnAddr r)) := by
  rw [decodeRecord, if_neg (Bool.eq_false_iff.1 h), if_pos hd]

theorem decodeRecord_malformed {r : Record} (h : txnWrite r = false) (hd : txnData r ≠ 0) :
    decodeRecord r = .error .malformedRecord := by
  rw [decodeRecord, if_neg (Bool.eq_false_iff.1 h), if_neg hd]

@[simp] theorem decodeRecord_recordOf_write (a : HAddr) (v : Word) :
    decodeRecord (recordOf true a v) = .ok (.hwr a v) := by
  obtain ⟨hw, ha, hd⟩ := fields_of_recordOf true a v
  rw [decodeRecord_write hw, ha, hd]

@[simp] theorem decodeRecord_recordOf_read (a : HAddr) : decodeRecord (recordOf false a 0) = .ok (.hrd a) := by
  obtain ⟨hw, ha, hd⟩ := fields_of_recordOf false a 0
  rw [decodeRecord_read hw hd, ha]

/-- A record that decodes is the code of its access. -/
theorem encode_of_decodeRecord {r : Record} {i : Instr} (h : decodeRecord r = .ok i) :
    encode i = .record r ∧ i.wellFormed = true := by
  have hr := record_fields r
  cases hw : txnWrite r with
  | true =>
    rw [decodeRecord_write hw] at h
    cases h
    rw [hw] at hr
    exact ⟨congrArg Code.record hr, rfl⟩
  | false =>
    by_cases hd : txnData r = 0
    · rw [decodeRecord_read hw hd] at h
      cases h
      rw [hw, hd] at hr
      exact ⟨congrArg Code.record hr, rfl⟩
    · rw [decodeRecord_malformed hw hd] at h
      cases h

/-! ### The code of each instruction decodes to it -/

/-- An immediate that fits survives in the 16-bit field (R82). -/
theorem toNat_ofNat_of_fits {imm : Nat} (h : fitsImm16 imm = true) : (BitVec.ofNat 16 imm).toNat = imm := by
  rw [BitVec.toNat_ofNat, Nat.mod_eq_of_lt (Nat.lt_succ_of_le (fitsImm16_iff.1 h))]

/-- The decoder undoes the encoder (R84, R88, R89). -/
theorem decode_encode (i : Instr) (h : i.wellFormed = true) : decode (encode i) = .ok i := by
  cases i with
  | nop => decide
  | iseed len =>
    rw [encode, commandWord_eq _ _ _ (fitsImm16_iff.1 h), decode, decodeCommand_joinFields, toNat_ofNat_of_fits h]
    rfl
  | inext => decide
  | irandbits n =>
    rw [encode, commandWord_eq _ _ _ (fitsImm16_iff.1 h), decode, decodeCommand_joinFields, toNat_ofNat_of_fits h]
    rfl
  | xseed => decide
  | xnext => decide
  | xrandbits n =>
    rw [encode, commandWord_eq _ _ _ (fitsImm16_iff.1 h), decode, decodeCommand_joinFields, toNat_ofNat_of_fits h]
    rfl
  | ocfg k f =>
    rw [encode, commandWord_eq _ _ _ (fitsImm16_iff.1 h), decode, decodeCommand_joinFields, toNat_ofNat_of_fits h]
    rfl
  | fermat => decide
  | millerrabin => decide
  | hwr a v => exact decodeRecord_recordOf_write a v
  | hrd a => exact decodeRecord_recordOf_read a

/-! ### The illegal words (R86) -/

/-- R86's description of the illegal words, by fields. -/
theorem reservedWord_joinFields (r1 : BitVec 32) (i : BitVec 16) (r0 : BitVec 7) (f : Bool) (o : BitVec 8) :
    reservedWord (joinFields r1 i r0 f o) ↔
      o ∉ ([0x00, 0x01, 0x02, 0x03, 0x08, 0x09, 0x0A, 0x10, 0x11, 0x12] : List (BitVec 8))
        ∨ r1 ≠ 0 ∨ r0 ≠ 0 ∨ (f = true ∧ o ≠ 0x10)
        ∨ (i ≠ 0 ∧ o ∉ ([0x01, 0x03, 0x0A, 0x10] : List (BitVec 8))) := by
  have himm : i.toNat ≠ 0 ↔ i ≠ 0 := not_congr (BitVec.toNat_eq (x := i) (y := 0)).symm
  rw [reservedWord, opField_joinFields, rsv1Field_joinFields, rsv0Field_joinFields, flagField_joinFields,
    imm16Field_joinFields, himm]

/-- The decoder refuses exactly the reserved words (R86). -/
theorem decodeCommand_illegal_iff (w : Word) : decodeCommand w = .error .illegalCommand ↔ reservedWord w := by
  rw [← joinFields_fields w, decodeCommand_joinFields, reservedWord_joinFields]
  generalize rsv1Field w = r1, immBits w = i, rsv0Field w = r0, flagField w = f, opField w = o
  by_cases hrsv : r1 = 0 ∧ r0 = 0
  · obtain ⟨rfl, rfl⟩ := hrsv
    by_cases hF : o = 0x10#8
    · subst hF
      simp
    · cases f with
      | true => simp [hF]
      | false =>
        by_cases himm : o = 0x01#8 ∨ o = 0x03#8 ∨ o = 0x0A#8
        · rcases himm with rfl | rfl | rfl <;> simp
        · obtain ⟨h01, h03, h0A⟩ : o ≠ 0x01#8 ∧ o ≠ 0x03#8 ∧ o ≠ 0x0A#8 := by tauto
          by_cases hi : i = 0#16
          · subst hi
            by_cases hnone : o = 0x00#8 ∨ o = 0x02#8 ∨ o = 0x08#8 ∨ o = 0x09#8 ∨ o = 0x11#8 ∨ o = 0x12#8
            · rcases hnone with rfl | rfl | rfl | rfl | rfl | rfl <;> simp
            · simp only [not_or] at hnone
              simp [hF, h01, h03, h0A, hnone]
          · simp [hF, h01, h03, h0A, hi]
  · rw [if_pos hrsv]
    exact iff_of_true rfl (.inr (by tauto))

end Sys2Proof

/-! ### One step, by the next input (44_control.md R200, 20_memory.md R73, 70_reset_and_hazards.md R240) -/

namespace Sys2Proof.Machine

section
variable {s : State} {rest : List Input}

theorem step_of_no_input (h : s.env.inputs = []) : step s = engineTurn s := by
  simp only [step, h]

theorem step_of_engineTurn (h : s.env.inputs = .engineTurn :: rest) : step s = engineTurn (s.setInputs rest) := by
  simp only [step, h]

theorem step_of_access {r : Record} (h : s.env.inputs = .access r :: rest) :
    step s = hostAccess r (s.setInputs rest) := by
  simp only [step, h]

theorem step_of_reset (h : s.env.inputs = .reset :: rest) : step s = .next (applyReset (s.setInputs rest)) := by
  simp only [step, h]

end

theorem hostAccess_of_ok {r : Record} {i : Instr} (s : State) (h : decodeRecord r = .ok i) :
    hostAccess r s = exec i s := by
  simp only [hostAccess, h]

theorem hostAccess_of_error {r : Record} {e : DecodeError} (s : State) (h : decodeRecord r = .error e) :
    hostAccess r s = .refused .malformedRecord := by
  simp only [hostAccess, h]

/-- The turn of an engine with a legal command latched (R200). -/
theorem engineTurn_of_command {s t : State} {i : Instr} (hb : s.status.busy = true) (hd : decodeCommand s.pend = .ok i)
    (h : exec i s = .next t) : engineTurn s = .next t.completed := by
  simp only [engineTurn, engineStep, hb, if_true, hd, h, mapNext, release_eq_completed]

/-- The turn of an engine with an illegal word latched (R86, R200). -/
theorem engineTurn_of_illegal {s : State} {e : DecodeError} (hb : s.status.busy = true)
    (hd : decodeCommand s.pend = .error e) :
    engineTurn s = .next { s with status := { s.status with err := .illegal } }.completed := by
  simp only [engineTurn, engineStep, hb, if_true, hd]
  rfl

/-- The next agent is the engine, the model's inputs being `rest` at its turn: an engine turn among the inputs, or no
input left (R73, R201). -/
def EngineNext (s : State) (rest : List Input) : Prop :=
  s.env.inputs = [] ∧ rest = [] ∨ s.env.inputs = .engineTurn :: rest

theorem step_of_engineNext {s : State} {rest : List Input} (h : EngineNext s rest) :
    step s = engineTurn (s.setInputs rest) := by
  rcases h with ⟨h, rfl⟩ | h
  · have hs : s.setInputs [] = s := by rw [← h]; rfl
    rw [step_of_no_input h, hs]
  · exact step_of_engineTurn h

/-! ### Words placed from the opcode table (30_encoding.md R80, R88) -/

/-- Which code an opcode-table word is, by its row's length. -/
theorem tableCode_of_decode {nbits w : Nat} {i : Instr} (h : decodeTableWord nbits w = some i) :
    ∃ c, tableCode nbits w = some c ∧ decode c = .ok i := by
  unfold decodeTableWord at h
  cases hc : tableCode nbits w with
  | none => rw [hc] at h; cases h
  | some c =>
    cases hd : decode c with
    | error e => simp only [hc, hd] at h; cases h
    | ok j =>
      simp only [hc, hd, Option.some.injEq] at h
      exact ⟨c, rfl, by rw [hd, h]⟩

theorem tableCode_command {nbits w : Nat} {c : Code} (hn : nbits ≤ 64) (h : tableCode nbits w = some c) :
    c = .command (BitVec.ofNat 64 w) := by
  rw [tableCode, if_pos hn] at h
  split at h
  · exact (Option.some.inj h).symm
  · cases h

theorem tableCode_record {nbits w : Nat} {c : Code} (hn : 64 < nbits) (h : tableCode nbits w = some c) :
    c = .record (BitVec.ofNat 76 w) := by
  rw [tableCode, if_neg (by omega)] at h
  split at h
  · exact (Option.some.inj h).symm
  · cases h

theorem withFetchWord_of_tableCode {nbits w : Nat} {c : Code} (s : State) (h : tableCode nbits w = some c) :
    s.withFetchWord nbits w = placeCode s c := by
  simp only [State.withFetchWord, h]

/-! ### The obligations -/

/-- Settles O1: by evaluation of the decoder. -/
theorem writtenWordsDecode : Obligations.WrittenWordsDecode := by
  unfold Obligations.WrittenWordsDecode
  decide

/-- Settles O2: each row's mask and match read back the fields the encoder writes. -/
theorem decodeOfEncode : Obligations.DecodeOfEncode := decode_encode

/-- Settles O3: each row fixes every bit of a word that is no operand of it, and so does the record's format. -/
theorem encodeOfDecode : Obligations.EncodeOfDecode := by
  unfold Obligations.EncodeOfDecode
  intro c i h
  cases c with
  | command w => exact encode_of_decodeCommand h
  | record r => exact encode_of_decodeRecord h

/-- Settles O4: rows exclude each other, the refused words are the reserved ones, and the engine's turn raises
ILLEGAL. -/
theorem illegalWordsAreTheReservedOnes : Obligations.IllegalWordsAreTheReservedOnes := by
  unfold Obligations.IllegalWordsAreTheReservedOnes
  refine ⟨fun w r => decodeCommand_of_row, decodeCommand_illegal_iff, fun s hin hb hres => ?_⟩
  rw [step_of_no_input hin]
  exact engineTurn_of_illegal hb ((decodeCommand_illegal_iff s.pend).2 hres)

/-- Settles O5: the record's three cases, the malformed one refused by the step. -/
theorem recordFormat : Obligations.RecordFormat := by
  unfold Obligations.RecordFormat
  refine fun r => ⟨decodeRecord_write, decodeRecord_read, fun hw hd => ?_⟩
  have hbad := decodeRecord_malformed hw hd
  refine ⟨hbad, fun s rest hin => ?_⟩
  rw [step_of_access hin, hostAccess_of_error _ hbad]

/-- Settles O6: the turn as an input and by itself is one case, `EngineNext`. -/
theorem engineStepRunsTheLatchedCommand : Obligations.EngineStepRunsTheLatchedCommand := by
  unfold Obligations.EngineStepRunsTheLatchedCommand
  rintro s s0 h
  have hstep : step s = engineTurn s0 ∧ s0.status = s.status ∧ s0.pend = s.pend := by
    rcases h with ⟨hin, rfl⟩ | ⟨rest, hin, rfl⟩
    · exact ⟨step_of_no_input hin, rfl, rfl⟩
    · exact ⟨step_of_engineTurn hin, rfl, rfl⟩
  obtain ⟨hstep, hst, hpend⟩ := hstep
  rw [hstep, ← hst, ← hpend]
  refine ⟨engineTurn_idle, fun hb i hd => ?_, fun hb e => engineTurn_of_illegal hb⟩
  obtain ⟨t, ht⟩ := exec_next i s0
  exact ⟨t, ht, engineTurn_of_command hb hd ht⟩

/-- Settles O7: an access input is used up, then its record's instruction runs. -/
theorem hostAccessRunsTheRecord : Obligations.HostAccessRunsTheRecord := by
  unfold Obligations.HostAccessRunsTheRecord
  intro s r rest i hin hd
  rw [step_of_access hin, hostAccess_of_ok _ hd]
  rfl

/-- Settles O8: a placed command is latched with the engine's turn next, a placed record is the next access. -/
theorem placedWordRunsNext : Obligations.PlacedWordRunsNext := by
  unfold Obligations.PlacedWordRunsNext
  intro s nbits w i h
  obtain ⟨c, hc, hd⟩ := tableCode_of_decode h
  rw [withFetchWord_of_tableCode s hc]
  refine ⟨fun hn => ?_, fun hn => ?_⟩
  · obtain rfl := tableCode_command hn hc
    obtain ⟨t, ht⟩ := exec_next i (latch (BitVec.ofNat 64 w) s)
    exact ⟨t, ht, (step_of_engineTurn rfl).trans (engineTurn_of_command rfl hd ht)⟩
  · obtain rfl := tableCode_record hn hc
    exact (step_of_access rfl).trans (hostAccess_of_ok _ hd)

/-- Settles O14: reset keeps LIMBS and the surroundings but the count of unspecified values. -/
theorem resetEventAbandonsTheCommand : Obligations.ResetEventAbandonsTheCommand := by
  unfold Obligations.ResetEventAbandonsTheCommand
  exact fun s rest hin => ⟨step_of_reset hin, rfl, rfl, rfl⟩

end Sys2Proof.Machine

/-! ### Everything a command can do (10_state.md R26, R42; 60_exceptions.md R214) -/

namespace Sys2Proof.Machine

/-- The states a command can leave, case by case and with plain updates: an error changes ERR alone (R214), and each
success writes what its rule names. -/
inductive CommandResult (s : State) : Instr → State → Prop
  /-- R214 -/
  | error (i : Instr) (c : ErrCode) : CommandResult s i { s with status := { s.status with err := c } }
  /-- R203 -/
  | nop : CommandResult s .nop { s with status := { s.status with err := .ok } }
  /-- R110, the next 256 entropy words -/
  | iseedDrawn : CommandResult s (.iseed 0)
      { s with isaac := randinit s.isaac (entropyBlock s.env.entropyDraws)
               status := { s.status with iseeded := true, err := .ok }
               env := { s.env with entropyDraws := s.env.entropyDraws + 256 } }
  /-- R110, the SEED buffer -/
  | iseedBuffer : CommandResult s (.iseed 256)
      { s with isaac := randinit s.isaac s.seed, status := { s.status with iseeded := true, err := .ok } }
  /-- R111 -/
  | inext (hs : s.status.iseeded = true) : CommandResult s .inext
      { s with res := (isaacNext s.isaac).1, isaac := (isaacNext s.isaac).2, status := { s.status with err := .ok } }
  /-- R155 -/
  | irandbits (n : Nat) (h1 : 1 ≤ n) (hn : n ≤ 64 * s.limbs) (hs : s.status.iseeded = true) :
      CommandResult s (.irandbits n)
        { s with big := toLimbs s.limbs (packHigh n s.isaac).1, isaac := (packHigh n s.isaac).2
                 status := { s.status with err := .ok } }
  /-- R134 -/
  | xseed (h : ¬(s.arg0 = 0 ∧ s.arg1 = 0)) : CommandResult s .xseed
      { s with xs := { s0 := s.arg0, s1 := s.arg1 }, status := { s.status with xseeded := true, err := .ok } }
  /-- R135 -/
  | xnext (hs : s.status.xseeded = true) : CommandResult s .xnext
      { s with res := (xsNext s.xs).1, xs := (xsNext s.xs).2, status := { s.status with err := .ok } }
  /-- R156 -/
  | xrandbits (n : Nat) (h1 : 1 ≤ n) (hn : n ≤ 64 * s.limbs) (hs : s.status.xseeded = true) :
      CommandResult s (.xrandbits n)
        { s with big := toLimbs s.limbs (packLow n s.xs).1, xs := (packLow n s.xs).2
                 status := { s.status with err := .ok } }
  /-- R171 -/
  | ocfg (k : Nat) (f : Bool) (hk : k ≠ 0) : CommandResult s (.ocfg k f)
      { s with oracle := { k := BitVec.ofNat 16 k, fixb := f, obase := if f then s.arg0 else s.oracle.obase }
               status := { s.status with err := .ok } }
  /-- R177, R178 -/
  | test (i : Instr) (hi : i = .fermat ∨ i = .millerrabin) (v : Word) (d : Nat) : CommandResult s i
      { s with res := v, status := { s.status with err := .ok }, env := { s.env with baseDraws := d } }

/-- The two ends of a primality command. -/
theorem finishTest_result {i : Instr} (hi : i = .fermat ∨ i = .millerrabin) (r : Except ErrCode (Bool × Nat))
    (s : State) : CommandResult s i (finishTest r s) := by
  rcases finishTest_cases r s with ⟨c, -, h⟩ | ⟨v, d, -, h⟩ <;> rw [h]
  · exact .error i c
  · exact .test i hi _ d

/-- Every command ends in one of these states. -/
theorem exec_command_result {i : Instr} {s t : State} (hc : i.isCommand = true) (h : exec i s = .next t) :
    CommandResult s i t := by
  cases i with
  | nop => rw [next_unique h (exec_nop s)]; exact .nop
  | iseed len =>
    rcases execIseed_cases len s with ⟨rfl, e⟩ | ⟨rfl, e⟩ | ⟨-, -, e⟩ <;> rw [next_unique h e]
    · rw [installStream_eq]; exact .iseedDrawn
    · rw [installStream_eq]; exact .iseedBuffer
    · exact .error _ _
  | inext =>
    rcases execInext_cases s with ⟨hs, e⟩ | ⟨-, e⟩ <;> rw [next_unique h e]
    · exact .inext hs
    · exact .error _ _
  | irandbits n =>
    rcases execIrandbits_cases n s with ⟨-, e⟩ | ⟨-, -, e⟩ | ⟨⟨h1, hn⟩, hs, e⟩ <;> rw [next_unique h e]
    · exact .error _ _
    · exact .error _ _
    · exact .irandbits n h1 hn hs
  | xseed =>
    rcases execXseed_cases s with ⟨-, e⟩ | ⟨h0, e⟩ <;> rw [next_unique h e]
    · exact .error _ _
    · exact .xseed h0
  | xnext =>
    rcases execXnext_cases s with ⟨hs, e⟩ | ⟨-, e⟩ <;> rw [next_unique h e]
    · exact .xnext hs
    · exact .error _ _
  | xrandbits n =>
    rcases execXrandbits_cases n s with ⟨-, e⟩ | ⟨-, -, e⟩ | ⟨⟨h1, hn⟩, hs, e⟩ <;> rw [next_unique h e]
    · exact .error _ _
    · exact .error _ _
    · exact .xrandbits n h1 hn hs
  | ocfg k f =>
    rcases execOcfg_cases k f s with ⟨-, e⟩ | ⟨hk, e⟩ <;> rw [next_unique h e]
    · exact .error _ _
    · exact .ocfg k f hk
  | fermat => rw [next_unique h (exec_fermat s)]; exact finishTest_result (.inl rfl) _ s
  | millerrabin => rw [next_unique h (exec_millerrabin s)]; exact finishTest_result (.inr rfl) _ s
  | hwr a v => cases hc
  | hrd a => cases hc

/-! ### The frame of a host access (20_memory.md R64 to R68) -/

/-- The fields no host access writes: INFO, RES, BIG, the generators, the oracle's configuration, ERR and the seeded
flags (R26, R210). -/
structure AccessFrame (s t : State) : Prop where
  limbs : t.limbs = s.limbs
  res : t.res = s.res
  big : t.big = s.big
  isaac : t.isaac = s.isaac
  xs : t.xs = s.xs
  oracle : t.oracle = s.oracle
  err : t.status.err = s.status.err
  iseeded : t.status.iseeded = s.status.iseeded
  xseeded : t.status.xseeded = s.status.xseeded

/-- A host write keeps the frame and the surroundings, and writes only the element its address names. -/
structure WriteFrame (a : HAddr) (s t : State) : Prop extends AccessFrame s t where
  env : t.env = s.env
  latch : a ≠ 0x001 → t.pend = s.pend ∧ t.status.busy = s.status.busy
  arg0 : a ≠ 0x004 → t.arg0 = s.arg0
  arg1 : a ≠ 0x005 → t.arg1 = s.arg1
  seed : ∀ j : BitVec 8, a.toNat ≠ 0x300 + j.toNat → t.seed.get8 j = s.seed.get8 j
  num : ∀ j : Nat, a.toNat ≠ 0x400 + j → t.num[j]? = s.num[j]?

/-- A change of STATUS that leaves BUSY, ERR and the seeded flags keeps the frame. -/
theorem WriteFrame.setStatus {a : HAddr} {s : State} {st : Status} (hb : st.busy = s.status.busy)
    (he : st.err = s.status.err) (hi : st.iseeded = s.status.iseeded) (hx : st.xseeded = s.status.xseeded) :
    WriteFrame a s (s.setStatus st) :=
  ⟨⟨rfl, rfl, rfl, rfl, rfl, rfl, he, hi, hx⟩, rfl, fun _ => ⟨rfl, hb⟩, fun _ => rfl, fun _ => rfl, fun _ _ => rfl,
    fun _ _ => rfl⟩

/-- The one address of each register (R61). -/
def HReg.addr : HReg → Nat
  | .info => 0x000 | .cmd => 0x001 | .status => 0x002 | .res => 0x003 | .arg0 => 0x004 | .arg1 => 0x005
  | .ocfgv => 0x006 | .obase => 0x007 | .iaa => 0x008 | .ibb => 0x009 | .icc => 0x00A | .icnt => 0x00B
  | .xs0 => 0x00C | .xs1 => 0x00D
  | .mm i => 0x100 + i.toNat
  | .rsl i => 0x200 + i.toNat
  | .seed i => 0x300 + i.toNat
  | .num i => 0x400 + i
  | .big i => 0x500 + i

theorem lowReg_addr {n : Nat} {r : HReg} (h : lowReg n = some r) : n = r.addr := by
  unfold lowReg at h
  split at h <;> cases h <;> rfl

/-- An address that names a register is that register's address (R61). -/
theorem hregAt_addr {limbs : Nat} {a : HAddr} {r : HReg} (h : hregAt limbs a = some r) : a.toNat = r.addr := by
  rcases hregAt_inv h with ⟨-, hlow⟩ | ⟨i, ⟨ha, rfl⟩ | ⟨ha, rfl⟩ | ⟨ha, rfl⟩ | ⟨ha, -, rfl⟩ | ⟨ha, -, rfl⟩⟩
  · exact lowReg_addr hlow
  all_goals exact ha

/-! A store writes the one register it names (R64). -/
section
variable {r : HReg} (v : Word) (s : State)

theorem store_frame (r : HReg) : AccessFrame s (store r v s) := by
  cases r <;> exact ⟨rfl, rfl, rfl, rfl, rfl, rfl, rfl, rfl, rfl⟩

@[simp] theorem store_env (r : HReg) : (store r v s).env = s.env := by
  cases r <;> rfl

@[simp] theorem store_badaddr (r : HReg) : (store r v s).status.badaddr = s.status.badaddr := by
  cases r <;> rfl

theorem store_latch (h : r ≠ .cmd) : (store r v s).pend = s.pend ∧ (store r v s).status.busy = s.status.busy := by
  cases r with
  | cmd => exact absurd rfl h
  | _ => exact ⟨rfl, rfl⟩

theorem store_arg0 (h : r ≠ .arg0) : (store r v s).arg0 = s.arg0 := by
  cases r with
  | arg0 => exact absurd rfl h
  | _ => rfl

theorem store_arg1 (h : r ≠ .arg1) : (store r v s).arg1 = s.arg1 := by
  cases r with
  | arg1 => exact absurd rfl h
  | _ => rfl

theorem store_seed {j : BitVec 8} (h : r ≠ .seed j) : (store r v s).seed.get8 j = s.seed.get8 j := by
  cases r with
  | seed i => exact (Pool.get8_set8 s.seed i j v).trans (if_neg fun e => h (congrArg HReg.seed e.symm))
  | _ => rfl

theorem store_num {j : Nat} (h : r ≠ .num j) : (store r v s).num[j]? = s.num[j]? := by
  cases r with
  | num i => exact List.getElem?_set_ne fun e => h (congrArg HReg.num e)
  | _ => rfl

end

/-- A store keeps every register but that of the address written (R61, R64). -/
theorem WriteFrame.store {a : HAddr} {r : HReg} (v : Word) (s : State) (ha : a.toNat = r.addr) :
    WriteFrame a s (store r v s) where
  toAccessFrame := store_frame v s r
  env := store_env v s r
  latch h := store_latch v s fun e => h (BitVec.eq_of_toNat_eq (ha.trans (congrArg HReg.addr e)))
  arg0 h := store_arg0 v s fun e => h (BitVec.eq_of_toNat_eq (ha.trans (congrArg HReg.addr e)))
  arg1 h := store_arg1 v s fun e => h (BitVec.eq_of_toNat_eq (ha.trans (congrArg HReg.addr e)))
  seed _ h := store_seed v s fun e => h (ha.trans (congrArg HReg.addr e))
  num _ h := store_num v s fun e => h (ha.trans (congrArg HReg.addr e))

/-- HWR keeps its frame: it clears or sets sticky bits of STATUS, or stores (R64 to R66). -/
theorem execHwr_frame {a : HAddr} {v : Word} {s t : State} (h : execHwr a v s = .next t) : WriteFrame a s t := by
  rcases execHwr_cases a v s with ⟨-, e⟩ | ⟨-, -, e⟩ | ⟨-, -, -, e⟩ | ⟨-, -, r, hr, -, e⟩ <;> rw [next_unique h e]
  · exact .setStatus rfl rfl rfl rfl
  · exact .setStatus rfl rfl rfl rfl
  · exact .setStatus rfl rfl rfl rfl
  · exact .store v s (hregAt_addr hr)

/-- HRD writes BADADDR alone; the word read and the count of unspecified values are the model's own (R65 to R68). -/
theorem execHrd_writes {a : HAddr} {s t : State} (h : execHrd a s = .next t) :
    ∃ v d, t = { s with status := { s.status with badaddr := s.status.badaddr || !mapped s.limbs a }
                        env := { s.env with rdata := v, anyDraws := d } } := by
  have hkeep (hm : mapped s.limbs a = true) :
      s.status = { s.status with badaddr := s.status.badaddr || !mapped s.limbs a } := by
    rw [hm, Bool.not_true, Bool.or_false]
  rcases execHrd_cases a s with ⟨hm, e⟩ | ⟨hm, -, e⟩ | ⟨hm, r, -, -, e⟩ <;> rw [next_unique h e]
  · refine ⟨0, s.env.anyDraws, ?_⟩
    rw [hm, Bool.not_false, Bool.or_true]
    rfl
  · refine ⟨s.anyWord, s.env.anyDraws + 1, ?_⟩
    rw [← hkeep hm]
    rfl
  · refine ⟨s.view r, s.env.anyDraws, ?_⟩
    rw [← hkeep hm]
    rfl

/-- A read keeps the frame of an access. -/
theorem execHrd_frame {a : HAddr} {s t : State} (h : execHrd a s = .next t) : AccessFrame s t := by
  obtain ⟨v, d, rfl⟩ := execHrd_writes h
  exact ⟨rfl, rfl, rfl, rfl, rfl, rfl, rfl, rfl, rfl⟩

/-- Both accesses keep the frame of an access. -/
theorem exec_access_frame {i : Instr} {s t : State} (hc : i.isCommand = false) (h : exec i s = .next t) :
    AccessFrame s t := by
  cases i with
  | hwr a v => exact (execHwr_frame h).toAccessFrame
  | hrd a => exact execHrd_frame h
  | _ => cases hc

/-! ### Who writes BADADDR (R65) -/

/-- A host write raises BADADDR exactly when its address is read-only or unmapped (R65). -/
theorem execHwr_badaddr_iff {a : HAddr} {v : Word} {s t : State} (h0 : s.status.badaddr = false)
    (h : execHwr a v s = .next t) :
    t.status.badaddr = true ↔ a ≠ 0x002 ∧ writable s.limbs a = false := by
  rcases execHwr_cases a v s with ⟨ha, e⟩ | ⟨ha, hw, e⟩ | ⟨ha, hw, -, e⟩ | ⟨ha, -, r, hr, hw, e⟩ <;>
    rw [next_unique h e]
  · simp [h0, ha]
  · exact iff_of_true rfl ⟨ha, hw⟩
  · simp [flagOvr, h0, hw]
  · simp [h0, writable, hr, hw]

/-- A host read raises BADADDR exactly at an unmapped address (R65). -/
theorem execHrd_badaddr_iff {a : HAddr} {s t : State} (h0 : s.status.badaddr = false) (h : execHrd a s = .next t) :
    t.status.badaddr = true ↔ mapped s.limbs a = false := by
  obtain ⟨v, d, rfl⟩ := execHrd_writes h
  simp [h0]

/-- A read of an unmapped address returns 0 and sets BADADDR (R65, R68). -/
theorem execHrd_of_unmapped {a : HAddr} {s : State} (hm : mapped s.limbs a = false) :
    execHrd a s = .next (returnWord 0 (flagBadaddr s)) := by
  rcases execHrd_cases a s with ⟨-, e⟩ | ⟨hm', -⟩ | ⟨hm', -⟩
  · exact e
  · cases hm.symm.trans hm'
  · cases hm.symm.trans hm'

/-- While BUSY = 0 a read of a mapped address returns the register's value and changes nothing (R68). -/
theorem execHrd_of_idle {a : HAddr} {r : HReg} {s : State} (hr : hregAt s.limbs a = some r)
    (hb : s.status.busy = false) : execHrd a s = .next (returnWord (s.view r) s) := by
  simp [execHrd, hr, hb]

/-- A read of another register while BUSY = 1 returns an unspecified value (R67). -/
theorem execHrd_of_busy {a : HAddr} {r : HReg} {s : State} (hr : hregAt s.limbs a = some r)
    (hb : s.status.busy = true) (he : r.exactWhileBusy = false) :
    execHrd a s = .next (returnWord s.anyWord s.tookAny) := by
  simp [execHrd, hr, hb, he]

/-- The registers that are exact while BUSY = 1 have the three lowest addresses (R61, R67). -/
theorem exactWhileBusy_of_addr {r : HReg} (h : 3 ≤ r.addr) : r.exactWhileBusy = false := by
  cases r with
  | info => exact absurd h (by decide)
  | cmd => exact absurd h (by decide)
  | status => exact absurd h (by decide)
  | _ => rfl

/-! ### Values as a host reads them (R27, R28, R32) -/

theorem ocfgvWord_toNat (o : Oracle) : (ocfgvWord o).toNat = o.k.toNat + 65536 * o.fixb.toNat := by
  have hhigh : BitVec.toNat (0 : BitVec 47) = 0 := rfl
  rw [ocfgvWord, BitVec.toNat_append, BitVec.toNat_append, shift_or_chunk _ _ _ o.k.isLt, BitVec.toNat_ofBool,
    hhigh, Nat.zero_shiftLeft, Nat.zero_or, Nat.add_comm, Nat.mul_comm 65536]
  rfl

/-- The cursor fits in the word read at ICNT (R32). -/
theorem icntWord_toNat (c : Fin 257) : (BitVec.ofNat 64 c.val).toNat = c.val := by
  rw [BitVec.toNat_ofNat]
  omega

/-- STATUS bit by bit (R24). -/
theorem Status.word_getLsbD (st : Status) (i : Nat) :
    st.word.getLsbD i =
      if i = 0 then st.busy
      else if i < 4 then false
      else if i < 8 then st.err.code.getLsbD (i - 4)
      else if i = 8 then st.ovr
      else if i = 9 then st.badaddr
      else if i = 10 then st.iseeded
      else (decide (i = 11) && st.xseeded) := by
  simp only [Status.word, BitVec.getLsbD_append, BitVec.getLsbD_ofBool, BitVec.ofNat_eq_ofNat, BitVec.getLsbD_zero]
  by_cases hi : i < 12
  · interval_cases i <;> simp
  · simp (disch := omega) only [if_neg, decide_eq_false, Bool.false_and]

theorem ErrCode.code_le (c : ErrCode) : c.code.toNat ≤ 6 := by
  cases c <;> decide

/-- An address in the page at `p` by its offset. -/
theorem offset_toNat {a : HAddr} {p : Nat} (hhi : a.toNat ≤ p + 255) :
    (BitVec.ofNat 8 (a.toNat - p)).toNat = a.toNat - p := by
  rw [BitVec.toNat_ofNat]
  omega

theorem addr_eq_offset {a : HAddr} {p : Nat} (hlo : p ≤ a.toNat) (hhi : a.toNat ≤ p + 255) :
    a.toNat = p + (BitVec.ofNat 8 (a.toNat - p)).toNat := by
  rw [offset_toNat hhi]
  omega

/-- BIG's elements by a plain index (R61). -/
theorem hregAt_big_of_lt {limbs : Nat} {a : HAddr} {i : Nat} (hl : i < limbs) (hi : i < 256)
    (ha : a.toNat = 0x500 + i) : hregAt limbs a = some (.big i) := by
  have h8 : (BitVec.ofNat 8 i).toNat = i := by rw [BitVec.toNat_ofNat]; omega
  rw [hregAt_big (BitVec.ofNat 8 i) (by omega), h8, if_pos hl]

/-! ### The obligations -/

/-- Settles O18: the map at named addresses and page by page. -/
theorem registerMap : Obligations.RegisterMap := by
  unfold Obligations.RegisterMap
  intro limbs a
  refine ⟨?_, ?_, ?_, ?_, ?_, ?_, ?_, ?_, ?_, ?_, ?_, ?_, ?_, ?_, fun hlo hhi => ?_, fun hlo hhi => ?_,
    fun hlo hhi => ?_, fun hlo hhi => ?_, fun hlo hhi => ?_, fun hlo hhi => ?_, hregAt_high⟩
  iterate 14
    · rintro rfl
      rfl
  · have h14 : 14 ≤ a.toNat := hlo
    have h255 : a.toNat ≤ 255 := hhi
    rw [hregAt_low (by omega), lowReg_none h14]
  · exact hregAt_mm _ (addr_eq_offset hlo hhi)
  · exact hregAt_rsl _ (addr_eq_offset hlo hhi)
  · exact hregAt_seed _ (addr_eq_offset hlo hhi)
  · rw [hregAt_num _ (addr_eq_offset hlo hhi), offset_toNat hhi]
  · rw [hregAt_big _ (addr_eq_offset hlo hhi), offset_toNat hhi]

/-- Settles O20: each field stands at its bits. -/
theorem statusWordLayout : Obligations.StatusWordLayout := by
  unfold Obligations.StatusWordLayout
  intro st
  refine ⟨st.word_getLsbD 0, ?_, st.word_getLsbD 8, st.word_getLsbD 9, st.word_getLsbD 10, ?_, ?_, ?_,
    rfl, rfl, rfl, rfl, rfl, rfl, rfl, st.err.code_le⟩
  · refine BitVec.eq_of_getLsbD_eq fun i hi => ?_
    rw [BitVec.getLsbD_extractLsb', Status.word_getLsbD, if_neg (by omega), if_neg (by omega), if_pos (by omega),
      Nat.add_sub_cancel_left, decide_eq_true hi, Bool.true_and]
  · exact (st.word_getLsbD 11).trans (Bool.true_and _)
  · refine BitVec.eq_of_getLsbD_eq fun i hi => ?_
    rw [BitVec.getLsbD_extractLsb', Status.word_getLsbD, if_neg (by omega), if_pos (by omega), Bool.and_false]
    exact (BitVec.getLsbD_zero).symm
  · refine BitVec.eq_of_getLsbD_eq fun i hi => ?_
    rw [BitVec.getLsbD_extractLsb', Status.word_getLsbD]
    simp (disch := omega) only [if_neg, decide_eq_false, Bool.false_and, Bool.and_false]
    exact (BitVec.getLsbD_zero).symm

/-- Settles O23: an unmapped address, a register that is exact at all times, one that is not while BUSY = 1, and each
register while BUSY = 0. -/
theorem hostRead : Obligations.HostRead := by
  unfold Obligations.HostRead
  intro s a
  refine ⟨execHrd_of_unmapped, ?_, ?_, ?_, fun hm hlo hb => ?_, fun hb v hv => ?_⟩
  · rintro rfl; exact execHrd_exactWhileBusy (hregAt_eq_cmd.2 rfl) rfl
  · rintro rfl; exact execHrd_exactWhileBusy (hregAt_eq_status.2 rfl) rfl
  · rintro rfl; exact execHrd_exactWhileBusy (hregAt_info s.limbs) rfl
  · obtain ⟨r, hr⟩ := Option.isSome_iff_exists.1 hm
    have hlo' : 3 ≤ r.addr := hregAt_addr hr ▸ hlo
    exact ⟨_, _, execHrd_of_busy hr hb (exactWhileBusy_of_addr hlo')⟩
  · have hread {r : HReg} (hr : hregAt s.limbs a = some r) (hview : v = s.view r) :
        exec (.hrd a) s = .next { s with env := { s.env with rdata := v } } := by
      rw [hview]
      exact execHrd_of_idle hr hb
    rcases hv with ⟨rfl, h⟩ | ⟨rfl, h⟩ | ⟨rfl, h⟩ | ⟨rfl, h⟩ | ⟨rfl, h⟩ | ⟨rfl, h⟩ | ⟨rfl, h⟩ | ⟨rfl, h⟩ | ⟨rfl, h⟩ |
      ⟨rfl, h⟩ | ⟨rfl, h⟩ | ⟨i, ha, h⟩ | ⟨i, ha, h⟩ | ⟨i, ha, h⟩ | ⟨i, hl, hi, ha, h⟩ | ⟨i, hl, hi, ha, h⟩
    · exact hread (r := .res) rfl h
    · exact hread (hregAt_arg0 s.limbs) h
    · exact hread (hregAt_arg1 s.limbs) h
    · exact hread (r := .ocfgv) rfl (BitVec.eq_of_toNat_eq (h.trans (ocfgvWord_toNat s.oracle).symm))
    · exact hread (r := .obase) rfl h
    · exact hread (r := .iaa) rfl h
    · exact hread (r := .ibb) rfl h
    · exact hread (r := .icc) rfl h
    · exact hread (r := .icnt) rfl (BitVec.eq_of_toNat_eq (h.trans (icntWord_toNat s.isaac.icnt).symm))
    · exact hread (r := .xs0) rfl h
    · exact hread (r := .xs1) rfl h
    · exact hread (hregAt_mm i ha) h
    · exact hread (hregAt_rsl i ha) h
    · exact hread (hregAt_seed i ha) h
    · exact hread (hregAt_num_of_lt hl hi ha) (by simp [State.view, h])
    · exact hread (hregAt_big_of_lt hl hi ha) (by simp [State.view, h])

/-- Settles O24: commands keep BADADDR, and each access raises it in its one case. -/
theorem badaddrIsSetExactlyBy : Obligations.BadaddrIsSetExactlyBy := by
  unfold Obligations.BadaddrIsSetExactlyBy
  intro i s t h0 h
  cases hc : i.isCommand with
  | true =>
    have hkeep : t.status.badaddr = false := by
      have hbits := exec_command_hostBits hc h
      exact (congrArg (fun bits => bits.2.2) hbits).trans h0
    rw [hkeep]
    refine ⟨⟨nofun, ?_⟩, nofun, fun _ => rfl⟩
    rintro (⟨a, rfl, -⟩ | ⟨a, v, rfl, -⟩) <;> cases hc
  | false =>
    cases i with
    | hwr a v =>
      have hiff := execHwr_badaddr_iff h0 h
      refine ⟨hiff.trans ?_, fun ht => ?_, nofun⟩
      · simp
      · obtain rfl := next_unique h (execHwr_of_not_writable v (hiff.1 ht).2)
        exact ⟨rfl, nofun, fun _ _ _ => rfl⟩
    | hrd a =>
      have hiff := execHrd_badaddr_iff h0 h
      refine ⟨hiff.trans ?_, fun ht => ?_, ?_⟩
      · simp
      · obtain rfl := next_unique h (execHrd_of_unmapped (hiff.1 ht))
        exact ⟨rfl, fun _ _ => rfl, nofun⟩
      · rintro ⟨⟩
        exact Bool.eq_false_iff.2 (hiff.not.2 nofun)
    | _ => cases hc

/-- Settles O26: the two accesses' frames, field by field. -/
theorem hostAccessFrame : Obligations.HostAccessFrame := by
  unfold Obligations.HostAccessFrame
  refine ⟨fun s t a v h => ?_, fun s t a h => ?_⟩
  · have hf := execHwr_frame h
    exact ⟨hf.limbs, hf.res, hf.big, hf.isaac, hf.xs, hf.oracle, hf.env, hf.err, hf.iseeded, hf.xseeded, hf.latch,
      hf.arg0, hf.arg1, hf.seed, hf.num⟩
  · obtain ⟨v, d, rfl⟩ := execHrd_writes h
    exact ⟨rfl, rfl, rfl, rfl, rfl, rfl, rfl, rfl, rfl, rfl, rfl, rfl, rfl, rfl, rfl⟩

end Sys2Proof.Machine

/-! ### What commands write and leave (10_state.md R26, R30, R42; 60_exceptions.md R214) -/

namespace Sys2Proof.Machine

/-- Of STATUS a command writes ERR and a seeded flag; of the surroundings it counts draws of the two sources; PEND,
ARG0, ARG1, SEED, NUM and INFO it leaves (R26, R42). -/
theorem CommandResult.frame {i : Instr} {s t : State} (h : CommandResult s i t) :
    t = { s with
          status := { s.status with err := t.status.err, iseeded := t.status.iseeded, xseeded := t.status.xseeded }
          res := t.res, big := t.big, isaac := t.isaac, xs := t.xs, oracle := t.oracle
          env := { s.env with entropyDraws := t.env.entropyDraws, baseDraws := t.env.baseDraws } } := by
  cases h <;> rfl

/-- A command that leaves an ERR other than OK changed ERR alone (R214). -/
theorem CommandResult.of_error {i : Instr} {s t : State} (h : CommandResult s i t) (he : t.status.err ≠ .ok) :
    t = { s with status := { s.status with err := t.status.err } } := by
  cases h with
  | error i c => rfl
  | _ => exact absurd rfl he

/-- Only OCFG writes the oracle's configuration (R30). -/
theorem CommandResult.oracle {i : Instr} {s t : State} (h : CommandResult s i t) (hi : ∀ k f, i ≠ .ocfg k f) :
    t.oracle = s.oracle := by
  cases h with
  | ocfg k f hk => exact absurd rfl (hi k f)
  | _ => rfl

/-- ISEEDED changes only at a successful ISEED, to 1 (R26, R33). -/
theorem CommandResult.iseeded {i : Instr} {s t : State} (h : CommandResult s i t)
    (hne : t.status.iseeded ≠ s.status.iseeded) :
    t.status.iseeded = true ∧ t.status.err = .ok ∧ ∃ len, i = .iseed len := by
  cases h with
  | iseedDrawn => exact ⟨rfl, rfl, 0, rfl⟩
  | iseedBuffer => exact ⟨rfl, rfl, 256, rfl⟩
  | _ => exact absurd rfl hne

/-- XSEEDED changes only at a successful XSEED, to 1 (R26, R35). -/
theorem CommandResult.xseeded {i : Instr} {s t : State} (h : CommandResult s i t)
    (hne : t.status.xseeded ≠ s.status.xseeded) : t.status.xseeded = true ∧ t.status.err = .ok ∧ i = .xseed := by
  cases h with
  | xseed h => exact ⟨rfl, rfl, rfl⟩
  | _ => exact absurd rfl hne

/-- A primality command writes RES, ERR and the count of base draws (R177, R178). -/
theorem CommandResult.test_frame {i : Instr} {s t : State} (h : CommandResult s i t)
    (hi : i = .fermat ∨ i = .millerrabin) :
    t = { s with res := t.res, status := { s.status with err := t.status.err }
                 env := { s.env with baseDraws := t.env.baseDraws } } := by
  cases h with
  | error i c => rfl
  | test i hi v d => rfl
  | _ => simp at hi

/-- Who sets and clears ISEEDED, of all twelve instructions (R26). -/
theorem exec_iseeded {i : Instr} {s t : State} (h : exec i s = .next t) (hne : t.status.iseeded ≠ s.status.iseeded) :
    t.status.iseeded = true ∧ t.status.err = .ok ∧ ∃ len, i = .iseed len := by
  cases hc : i.isCommand with
  | true => exact (exec_command_result hc h).iseeded hne
  | false => exact absurd (exec_access_frame hc h).iseeded hne

/-- Who sets and clears XSEEDED, of all twelve instructions (R26). -/
theorem exec_xseeded {i : Instr} {s t : State} (h : exec i s = .next t) (hne : t.status.xseeded ≠ s.status.xseeded) :
    t.status.xseeded = true ∧ t.status.err = .ok ∧ i = .xseed := by
  cases hc : i.isCommand with
  | true => exact (exec_command_result hc h).xseeded hne
  | false => exact absurd (exec_access_frame hc h).xseeded hne

/-- A flag that changes only to 1 stays 1. -/
theorem stays_true {b b' : Bool} (h : b' ≠ b → b' = true) (hb : b = true) : b' = true := by
  by_cases e : b' = b
  · exact e.trans hb
  · exact h e

/-- A seeded flag that is set stays set. -/
def SeededStays (s t : State) : Prop :=
  (s.status.iseeded = true → t.status.iseeded = true) ∧ (s.status.xseeded = true → t.status.xseeded = true)

/-- No instruction clears a seeded flag (R26). -/
theorem exec_seededStays {i : Instr} {s t : State} (h : exec i s = .next t) : SeededStays s t :=
  ⟨stays_true fun hne => (exec_iseeded h hne).1, stays_true fun hne => (exec_xseeded h hne).1⟩

theorem engineTurn_seededStays {s t : State} (h : engineTurn s = .next t) : SeededStays s t := by
  rcases engineTurn_cases s with ⟨-, e⟩ | ⟨-, i, -, e⟩ | ⟨-, -, e⟩
  · obtain rfl := next_unique h e
    exact ⟨id, id⟩
  · obtain ⟨u, hu⟩ := exec_next i s
    rw [hu] at e
    obtain rfl := next_unique h e
    exact (exec_seededStays hu : SeededStays s u)
  · obtain rfl := next_unique h e
    exact ⟨id, id⟩

/-- A step without reset keeps the seeded flags that are set (R26, R240). -/
theorem step_seededStays {s t : State} (hr : ∀ rest, s.env.inputs ≠ .reset :: rest) (h : step s = .next t) :
    SeededStays s t := by
  rcases step_cases s with ⟨-, e⟩ | ⟨rest, -, e⟩ | ⟨r, rest, i, -, -, e⟩ | ⟨r, rest, err, -, -, e⟩ | ⟨rest, hin, -⟩
  · exact engineTurn_seededStays (e.symm.trans h)
  · exact engineTurn_seededStays (s := s.setInputs rest) (e.symm.trans h)
  · exact exec_seededStays (s := s.setInputs rest) (e.symm.trans h)
  · cases e.symm.trans h
  · exact absurd hin (hr rest)

/-- Of all instructions only a host write to STATUS clears OVR or BADADDR (R25, R26). -/
theorem exec_sticky {i : Instr} {s t : State} (h : exec i s = .next t) :
    (s.status.ovr = true → t.status.ovr = true) ∧ (s.status.badaddr = true → t.status.badaddr = true)
      ∨ ∃ v, i = .hwr 0x002 v := by
  cases hc : i.isCommand with
  | true =>
    have hbits := exec_command_hostBits hc h
    exact .inl ⟨fun h1 => (congrArg (·.2.1) hbits).trans h1, fun h1 => (congrArg (·.2.2) hbits).trans h1⟩
  | false =>
    cases i with
    | hwr a v =>
      rcases execHwr_cases a v s with ⟨rfl, -⟩ | ⟨-, -, e⟩ | ⟨-, -, -, e⟩ | ⟨-, -, r, -, -, e⟩
      · exact .inr ⟨v, rfl⟩
      · obtain rfl := next_unique h e
        exact .inl ⟨id, fun _ => rfl⟩
      · obtain rfl := next_unique h e
        exact .inl ⟨fun _ => rfl, id⟩
      · obtain rfl := next_unique h e
        exact .inl ⟨(store_ovr r v s).trans, (store_badaddr v s r).trans⟩
    | hrd a =>
      obtain ⟨v, d, rfl⟩ := execHrd_writes h
      exact .inl ⟨id, fun h1 => by simp [h1]⟩
    | _ => cases hc

/-! ### The obligations -/

/-- Settles O57: by the two cases a command has for the configuration, and by the frame of the tests. -/
theorem oracleConfigurationIsImmutable : Obligations.OracleConfigurationIsImmutable := by
  unfold Obligations.OracleConfigurationIsImmutable
  refine ⟨fun i s t hi h => ?_, fun s t h => ?_⟩
  · cases hc : i.isCommand with
    | true => exact (exec_command_result hc h).oracle hi
    | false => exact (exec_access_frame hc h).oracle
  · rcases h with h | h
    · exact (exec_command_result rfl h).test_frame (.inl rfl)
    · exact (exec_command_result rfl h).test_frame (.inr rfl)

/-- Settles O58: an error is the one case of a command that leaves ERR other than OK. -/
theorem errorsChangeOnlyErr : Obligations.ErrorsChangeOnlyErr := by
  unfold Obligations.ErrorsChangeOnlyErr
  intro i s t hc h he
  have ht := (exec_command_result hc h).of_error he
  refine ⟨ht, fun hin hb hd => ?_⟩
  rw [step_of_no_input hin, engineTurn_of_command hb hd h]
  exact congrArg (fun u : State => Host.Outcome.next u.completed) ht

/-- Settles O59: row by row of R42, by the cases of `CommandResult`. -/
theorem commandFrame : Obligations.CommandFrame := by
  unfold Obligations.CommandFrame
  intro i s t hc h
  cases exec_command_result hc h with
  | ocfg k f hk => cases f <;> simp
  | test i hi v d => rcases hi with rfl | rfl <;> simp
  | _ => simp

/-- Settles O60: commands keep the host's bits, accesses keep the rest, and no step but reset clears a seeded flag. -/
theorem statusWriters : Obligations.StatusWriters := by
  unfold Obligations.StatusWriters
  refine ⟨fun i s t h => ⟨fun hne => ?_, fun hne => ?_, fun hne => ?_, fun h1 h0 => ?_, fun h1 h0 => ?_, exec_iseeded h,
    exec_xseeded h⟩, fun s t hr h => step_seededStays hr h⟩
  · by_contra hc
    exact hne (exec_access_frame (Bool.eq_false_iff.2 hc) h).err
  · by_contra hc
    exact hne (congrArg (·.2.1) (exec_command_hostBits (Bool.not_eq_false _ ▸ hc) h))
  · by_contra hc
    exact hne (congrArg (·.2.2) (exec_command_hostBits (Bool.not_eq_false _ ▸ hc) h))
  · refine (exec_sticky h).resolve_left fun hst => ?_
    cases (hst.1 h1).symm.trans h0
  · refine (exec_sticky h).resolve_left fun hst => ?_
    cases (hst.2 h1).symm.trans h0

end Sys2Proof.Machine

/-! ### Runs: inputs are used up, and a latched command comes to its turn (20_memory.md R66, R73; 44_control.md R200) -/

namespace Sys2Proof.Machine

/-! ### The inputs through a step -/

/-- No instruction touches the inputs still to come. -/
theorem exec_inputs {i : Instr} {s t : State} (h : exec i s = .next t) : t.env.inputs = s.env.inputs := by
  cases hc : i.isCommand with
  | true => exact congrArg (·.env.inputs) (exec_command_result hc h).frame
  | false =>
    cases i with
    | hwr a v => exact congrArg Env.inputs (execHwr_frame h).env
    | hrd a => obtain ⟨v, d, rfl⟩ := execHrd_writes h; rfl
    | _ => cases hc

theorem engineTurn_inputs {s t : State} (h : engineTurn s = .next t) : t.env.inputs = s.env.inputs := by
  rcases engineTurn_cases s with ⟨-, e⟩ | ⟨-, i, -, e⟩ | ⟨-, -, e⟩
  · rw [next_unique h e]
  · obtain ⟨u, hu⟩ := exec_next i s
    rw [hu] at e
    obtain rfl := next_unique h e
    exact (exec_inputs hu : u.env.inputs = s.env.inputs)
  · rw [next_unique h e]
    rfl

/-- A step uses up the next input, whichever it is (R73). -/
theorem step_inputs {s t : State} (h : step s = .next t) : t.env.inputs = s.env.inputs.tail := by
  rcases step_cases s with ⟨hin, e⟩ | ⟨rest, hin, e⟩ | ⟨r, rest, i, hin, -, e⟩ | ⟨r, rest, err, -, -, e⟩ |
    ⟨rest, hin, e⟩
  · rw [engineTurn_inputs (e.symm.trans h), hin, List.tail_nil]
  · rw [engineTurn_inputs (e.symm.trans h), hin]
    rfl
  · rw [exec_inputs (e.symm.trans h), hin]
    rfl
  · cases e.symm.trans h
  · rw [next_unique h e, hin]
    rfl

/-- A well-formed record decodes (R88). -/
theorem decodeRecord_of_wellFormed {r : Record} (h : (Input.access r).wellFormed = true) :
    ∃ i, decodeRecord r = .ok i := by
  cases hw : txnWrite r with
  | true => exact ⟨_, decodeRecord_write hw⟩
  | false =>
    have hd : txnData r = 0 := by simpa [Input.wellFormed, hw] using h
    exact ⟨_, decodeRecord_read hw hd⟩

theorem inputsWellFormed_iff {s : State} : s.inputsWellFormed = true ↔ ∀ x ∈ s.env.inputs, x.wellFormed = true :=
  List.all_eq_true

/-- An engine turn has a next state (R200, R201). -/
theorem engineTurn_next (s : State) : ∃ t, engineTurn s = .next t := by
  rcases engineTurn_cases s with ⟨-, e⟩ | ⟨-, i, -, e⟩ | ⟨-, -, e⟩
  · exact ⟨_, e⟩
  · obtain ⟨u, hu⟩ := exec_next i s
    rw [hu] at e
    exact ⟨_, e⟩
  · exact ⟨_, e⟩

/-- A step stops only at a malformed record (R88, R201, R214). -/
theorem step_next {s : State} (h : s.inputsWellFormed = true) : ∃ t, step s = .next t := by
  rcases step_cases s with ⟨-, e⟩ | ⟨rest, -, e⟩ | ⟨r, rest, i, -, -, e⟩ | ⟨r, rest, err, hin, hd, -⟩ | ⟨rest, -, e⟩
  · exact e ▸ engineTurn_next s
  · exact e ▸ engineTurn_next _
  · exact e ▸ exec_next i _
  · obtain ⟨i, hi⟩ := decodeRecord_of_wellFormed (inputsWellFormed_iff.1 h (.access r) (hin ▸ List.mem_cons_self))
    cases hd.symm.trans hi
  · exact ⟨_, e⟩

theorem step_inputsWellFormed {s t : State} (h : s.inputsWellFormed = true) (hst : step s = .next t) :
    t.inputsWellFormed = true := by
  rw [inputsWellFormed_iff, step_inputs hst]
  exact fun x hx => inputsWellFormed_iff.1 h x (List.mem_of_mem_tail hx)

/-! ### Runs -/

/-- A run's first step. -/
theorem run_of_step {s t : State} (h : step s = .next t) (n : Nat) :
    Host.Core.run core (n + 1) s = Host.Core.run core n t := by
  have hcore : core.step s = .next t := h
  simp only [Host.Core.run, hcore]

/-- A run's last step. -/
theorem run_succ {n : Nat} {s u t : State} (hrun : Host.Core.run core n s = .next u) (hst : step u = .next t) :
    Host.Core.run core (n + 1) s = .next t := by
  induction n generalizing s with
  | zero =>
    cases hrun
    exact run_of_step hst 0
  | succ n ih =>
    cases hfirst : step s with
    | next v =>
      rw [run_of_step hfirst] at hrun ⊢
      exact ih hrun
    | fault f => cases f
    | refused r =>
      have hcore : core.step s = .refused r := hfirst
      simp only [Host.Core.run, hcore] at hrun
      cases hrun

/-! ### While BUSY = 1 (R66, R76) -/

/-- What host accesses may change while a command is latched: OVR and BADADDR, and the model's own fields but the counts
of entropy and base draws. -/
structure LatchedFrame (s u : State) : Prop where
  block : u = { s with status := { s.status with ovr := u.status.ovr, badaddr := u.status.badaddr }, env := u.env }
  entropyDraws : u.env.entropyDraws = s.env.entropyDraws
  baseDraws : u.env.baseDraws = s.env.baseDraws

theorem LatchedFrame.refl (s : State) : LatchedFrame s s := ⟨rfl, rfl, rfl⟩

theorem LatchedFrame.pend {s u : State} (h : LatchedFrame s u) : u.pend = s.pend := (congrArg State.pend h.block :)

theorem LatchedFrame.busy {s u : State} (h : LatchedFrame s u) : u.status.busy = s.status.busy :=
  (congrArg (·.status.busy) h.block :)

theorem LatchedFrame.trans {s u v : State} (h : LatchedFrame s u) (h' : LatchedFrame u v) : LatchedFrame s v where
  block := by
    rw [h'.block, h.block]
  entropyDraws := h'.entropyDraws.trans h.entropyDraws
  baseDraws := h'.baseDraws.trans h.baseDraws

/-- A host access while a command is latched (R25, R65 to R67). -/
theorem exec_access_busy {i : Instr} {s t : State} (hc : i.isCommand = false) (hb : s.status.busy = true)
    (h : exec i s = .next t) : LatchedFrame s t := by
  cases i with
  | hwr a v =>
    rcases execHwr_busy_cases a v s hb with e | e | e <;> rw [next_unique h e] <;> exact ⟨rfl, rfl, rfl⟩
  | hrd a =>
    obtain ⟨v, d, rfl⟩ := execHrd_writes h
    exact ⟨rfl, rfl, rfl⟩
  | _ => cases hc

/-- The host's accesses come one after another until the next input is none of them; the latched command waits. -/
theorem run_accesses {s : State} (hwf : s.inputsWellFormed = true) (hb : s.status.busy = true) :
    ∃ (j : Nat) (u : State), j ≤ s.env.inputs.length ∧ Host.Core.run core j s = .next u ∧ LatchedFrame s u
      ∧ u.env.inputs = s.env.inputs.drop j ∧ ∀ r rest, u.env.inputs ≠ .access r :: rest := by
  induction hin : s.env.inputs generalizing s with
  | nil => exact ⟨0, s, le_rfl, rfl, .refl s, hin, by simp [hin]⟩
  | cons x rest ih =>
    cases x with
    | access r =>
      obtain ⟨i, hd⟩ := decodeRecord_of_wellFormed (inputsWellFormed_iff.1 hwf (.access r) (hin ▸ List.mem_cons_self))
      obtain ⟨t, ht⟩ := exec_next i (s.setInputs rest)
      have hst : step s = .next t := by rw [step_of_access hin, hostAccess_of_ok _ hd, ht]
      have hframe : LatchedFrame s t :=
        LatchedFrame.trans (u := s.setInputs rest) ⟨rfl, rfl, rfl⟩
          (exec_access_busy (decodeRecord_isAccess hd) hb ht)
      have hrest : t.env.inputs = rest := exec_inputs ht
      obtain ⟨j, u, hj, hrun, hu, hdrop, hnext⟩ :=
        ih (step_inputsWellFormed hwf hst) (hframe.busy.trans hb) hrest
      exact ⟨j + 1, u, Nat.succ_le_succ hj, (run_of_step hst j).trans hrun, hframe.trans hu, hdrop, hnext⟩
    | engineTurn => exact ⟨0, s, Nat.zero_le _, rfl, .refl s, hin, by simp [hin]⟩
    | reset => exact ⟨0, s, Nat.zero_le _, rfl, .refl s, hin, by simp [hin]⟩

/-- The turn of an engine with BUSY = 1: the command PEND decodes to, or ILLEGAL, and BUSY is 0 (R200). -/
theorem engineTurn_busy {s : State} (hb : s.status.busy = true) :
    ∃ t, engineTurn s = .next t ∧ t.status.busy = false
      ∧ (∀ i, decodeCommand s.pend = .ok i → ∃ w, exec i s = .next w ∧ t = w.completed)
      ∧ (∀ e, decodeCommand s.pend = .error e →
          t = { s with status := { s.status with err := .illegal } }.completed) := by
  cases hd : decodeCommand s.pend with
  | ok i =>
    obtain ⟨w, hw⟩ := exec_next i s
    refine ⟨w.completed, engineTurn_of_command hb hd hw, rfl, fun j hj => ?_, nofun⟩
    cases hj
    exact ⟨w, hw, rfl⟩
  | error e => exact ⟨_, engineTurn_of_illegal hb hd, rfl, nofun, fun _ _ => rfl⟩

/-- After the turn PEND is the next unspecified value, whichever word was latched (R76). -/
theorem engineTurn_busy_pend {s t : State} (hb : s.status.busy = true) (h : engineTurn s = .next t) :
    t.status.busy = false ∧ t.pend = Config.any s.env.anyDraws := by
  obtain ⟨u, hu, hidle, hok, herr⟩ := engineTurn_busy hb
  obtain rfl := next_unique h hu
  refine ⟨hidle, ?_⟩
  cases hd : decodeCommand s.pend with
  | ok i =>
    obtain ⟨w, hw, rfl⟩ := hok i hd
    have hframe := (exec_command_result (decodeCommand_isCommand hd) hw).frame
    exact congrArg Config.any (congrArg (·.env.anyDraws) hframe)
  | error e => rw [herr e hd]; rfl

/-! ### The two accesses of CALL (R91) -/

/-- The step of a CMD write that the idle block accepts (R64). -/
theorem step_of_cmd_write {s : State} {w : Word} {rest : List Input} (hb : s.status.busy = false)
    (hin : s.env.inputs = .access (recordOf true 0x001 w) :: rest) : step s = .next (latch w (s.setInputs rest)) := by
  rw [step_of_access hin, hostAccess_of_ok _ (decodeRecord_recordOf_write _ _)]
  exact execHwr_of_store (s := s.setInputs rest) w hb (hregAt_eq_cmd.2 rfl) rfl nofun

/-- The step of a STATUS read (R67). -/
theorem step_of_status_read {s : State} {rest : List Input}
    (hin : s.env.inputs = .access (recordOf false 0x002 0) :: rest) :
    step s = .next (returnWord s.status.word (s.setInputs rest)) := by
  rw [step_of_access hin, hostAccess_of_ok _ (decodeRecord_recordOf_read _)]
  exact execHrd_exactWhileBusy (s := s.setInputs rest) (hregAt_eq_status.2 rfl) rfl

/-! ### The obligations -/

/-- Settles O11: a step uses up one input and never stops, so well-formed inputs stay well formed. -/
theorem runsNeverStop : Obligations.RunsNeverStop := by
  unfold Obligations.RunsNeverStop
  intro n
  induction n with
  | zero => exact fun s _ => ⟨s, rfl⟩
  | succ n ih =>
    intro s hwf
    obtain ⟨t, ht⟩ := step_next hwf
    rw [run_of_step ht]
    exact ih t (step_inputsWellFormed hwf ht)

/-- Settles O12: the accesses come one after another, then a reset or the engine's turn. -/
theorem busyClearsWithinTheInputs : Obligations.BusyClearsWithinTheInputs := by
  unfold Obligations.BusyClearsWithinTheInputs
  intro s hwf hb
  obtain ⟨j, u, hj, hrun, hu, hdrop, hnext⟩ := run_accesses hwf hb
  have hub := hu.busy.trans hb
  have hturn : (∃ rest, u.env.inputs = .reset :: rest) ∨ ∃ rest, EngineNext u rest := by
    cases hin : u.env.inputs with
    | nil => exact .inr ⟨[], .inl ⟨hin, rfl⟩⟩
    | cons x rest =>
      cases x with
      | access r => exact absurd hin (hnext r rest)
      | engineTurn => exact .inr ⟨rest, .inr hin⟩
      | reset => exact .inl ⟨rest, rfl⟩
  refine ⟨?_, fun hno => ?_⟩
  · rcases hturn with ⟨rest, hin⟩ | ⟨rest, hin⟩
    · exact ⟨j + 1, _, by omega, by omega, run_succ hrun (step_of_reset hin), rfl⟩
    · obtain ⟨t, ht, hidle, -⟩ := engineTurn_busy (s := u.setInputs rest) hub
      exact ⟨j + 1, t, by omega, by omega, run_succ hrun ((step_of_engineNext hin).trans ht), hidle⟩
  · rcases hturn with ⟨rest, hin⟩ | ⟨rest, hin⟩
    · have hmem : Input.reset ∈ s.env.inputs := List.mem_of_mem_drop (hdrop ▸ hin ▸ List.mem_cons_self)
      exact absurd rfl (hno _ hmem)
    · obtain ⟨t, ht, hidle, hok, herr⟩ := engineTurn_busy (s := u.setInputs rest) hub
      have hpend : (u.setInputs rest).pend = s.pend := hu.pend
      rw [hpend] at hok herr
      exact ⟨j, u, t, hj, hrun, run_succ hrun ((step_of_engineNext hin).trans ht), hu.block, hu.entropyDraws,
        hu.baseDraws, hidle, rest, hin, hok, herr⟩

/-- Settles O9: three steps, the write of CMD latching, the engine's turn completing, the read returning STATUS. -/
theorem callMacroCompletes : Obligations.CallMacroCompletes := by
  unfold Obligations.CallMacroCompletes
  intro s w rest i hb hd hin
  obtain ⟨t, ht⟩ := exec_next i (latch w (s.setInputs (.access (recordOf false 0x002 0) :: rest)))
  have hinputs : t.env.inputs = .access (recordOf false 0x002 0) :: rest := exec_inputs ht
  have hturn :
      step (latch w (s.setInputs (.engineTurn :: .access (recordOf false 0x002 0) :: rest))) = .next t.completed :=
    (step_of_engineTurn rfl).trans (engineTurn_of_command rfl hd ht)
  refine ⟨t, returnWord t.completed.status.word (t.completed.setInputs rest), ht, ?_, rfl, Status.word_getLsbD _ 0, rfl⟩
  exact (run_of_step (step_of_cmd_write hb hin) 2).trans ((run_of_step hturn 1).trans
    (run_of_step (step_of_status_read (s := t.completed) hinputs) 0))

/-- Settles O10: the latch is written by an accepted write of CMD and by the end of a turn, and by nothing between. -/
theorem latchedCommandIsStable : Obligations.LatchedCommandIsStable := by
  unfold Obligations.LatchedCommandIsStable
  refine ⟨fun s v hb => execHwr_of_store v hb (hregAt_eq_cmd.2 rfl) rfl nofun, fun s t a v hb h => ?_,
    fun s t a h => ?_, fun s t i hc h => ?_, fun s v w rest hb hin => ?_⟩
  · have hframe := exec_access_busy rfl hb h
    exact ⟨hframe.pend, hframe.busy.trans hb⟩
  · obtain ⟨x, d, rfl⟩ := execHrd_writes h
    exact ⟨rfl, rfl⟩
  · have hframe := (exec_command_result hc h).frame
    exact ⟨(congrArg State.pend hframe :), (congrArg (·.status.busy) hframe :)⟩
  · obtain ⟨rest', hnext⟩ : ∃ rest', ∀ v, EngineNext { s with pend := v } rest' :=
      hin.elim (fun h => ⟨[], fun _ => .inl ⟨h, rfl⟩⟩) fun h => ⟨rest, fun _ => .inr h⟩
    obtain ⟨t, ht⟩ := engineTurn_next ({ s with pend := v }.setInputs rest')
    obtain ⟨u, hu⟩ := engineTurn_next ({ s with pend := w }.setInputs rest')
    obtain ⟨htb, htp⟩ := engineTurn_busy_pend (s := { s with pend := v }.setInputs rest') hb ht
    obtain ⟨hub, hup⟩ := engineTurn_busy_pend (s := { s with pend := w }.setInputs rest') hb hu
    exact ⟨t, u, (step_of_engineNext (hnext v)).trans ht, (step_of_engineNext (hnext w)).trans hu, htb, hub,
      htp.trans hup.symm⟩

end Sys2Proof.Machine

/-! ### REGEN, RANDINIT and the order of the words (40_isaac64.md R101 to R112) -/

namespace Sys2Proof.Machine

/-! ### REGEN (R105, R109) -/

/-- What REGEN's loop starts from (R105). -/
def sweepStart (u : Isaac) : Sweep := { mm := u.mm, rsl := u.rsl, a := u.iaa, b := u.ibb + (u.icc + 1) }

theorem regen_eq (u : Isaac) :
    regen u =
      { mm := (sweep 256 (sweepStart u)).mm, rsl := (sweep 256 (sweepStart u)).rsl, iaa := (sweep 256 (sweepStart u)).a
        ibb := (sweep 256 (sweepStart u)).b, icc := u.icc + 1, icnt := u.icnt } := rfl

/-- The step of element m leaves its `b` in RSL[m] (R106). -/
theorem sweepStep_b (r : Sweep) (m : BitVec 8) : (sweepStep r m).b = (sweepStep r m).rsl.get8 m :=
  ((Pool.get8_set8 r.rsl m m _).trans (if_pos rfl)).symm

/-- After REGEN, IBB is the last word of the block (R109). -/
theorem regen_ibb (u : Isaac) : (regen u).ibb = (regen u).rsl.get8 255 := by
  rw [regen_eq, sweep_succ 255]
  exact sweepStep_b _ _

/-! ### ISAAC_NEXT keeps what REGEN made (R107) -/

/-- IBB is the last word of the current block (R109). -/
def LastWord (u : Isaac) : Prop := u.ibb = u.rsl.get8 255

theorem isaacNext_lastWord {u : Isaac} (h : LastWord u) : LastWord (isaacNext u).2 := by
  by_cases h0 : u.icnt = 0
  · rw [isaacNext_of_zero u h0]
    exact regen_ibb u
  · rw [isaacNext_of_ne u h0]
    exact h

theorem randinit_lastWord (u : Isaac) (seed : Pool) : LastWord (randinit u seed) := by
  rw [randinit_eq]
  exact regen_ibb (randinitStart u seed)

theorem afterWords_lastWord {u : Isaac} (h : LastWord u) (j : Nat) : LastWord (afterWords j u) := by
  induction j with
  | zero => exact h
  | succ j ih =>
    rw [afterWords_succ]
    exact isaacNext_lastWord ih

/-! ### A new stream depends on its seed alone (R103, R112) -/

/-- A register array is determined by its 32 groups. -/
theorem Pool.ext_groups {p q : Pool} (h : ∀ g < 32, groupOf p g = groupOf q g) : p = q := by
  refine Pool.ext8 fun i => ?_
  have hi := i.isLt
  have hg := h (i.toNat / 8) (by omega)
  simp only [groupOf, Accum.mk.injEq] at hg
  obtain ⟨h0, h1, h2, h3, h4, h5, h6, h7⟩ := hg
  have hslot {k : Nat} (hk : i.toNat % 8 = k) : i = slot (i.toNat / 8) k := by
    rw [slot, ← hk, Nat.div_add_mod, BitVec.ofNat_toNat, BitVec.setWidth_eq]
  obtain hk | hk | hk | hk | hk | hk | hk | hk : i.toNat % 8 = 0 ∨ i.toNat % 8 = 1 ∨ i.toNat % 8 = 2 ∨ i.toNat % 8 = 3
      ∨ i.toNat % 8 = 4 ∨ i.toNat % 8 = 5 ∨ i.toNat % 8 = 6 ∨ i.toNat % 8 = 7 := by omega
  all_goals
    rw [hslot hk]
    assumption

/-- The first pass overwrites all of MM and does not read it (R103, step 3). -/
theorem afterSeedPass_congr (u u' : Isaac) (seed : Pool) : afterSeedPass u seed = afterSeedPass u' seed := by
  have h := seedPass_inv seed (mix (mix (mix (mix goldenAccum)))) u.mm
  have h' := seedPass_inv seed (mix (mix (mix (mix goldenAccum)))) u'.mm
  exact Prod.ext (h.accum.trans h'.accum.symm)
    (Pool.ext_groups fun g hg => (h.stored g hg).trans (h'.stored g hg).symm)

/-- RANDINIT is a function of the seed: nothing of the old unit enters (R112). -/
theorem randinit_congr (u u' : Isaac) (seed : Pool) : randinit u seed = randinit u' seed := by
  have hstart : randinitStart u seed = { randinitStart u' seed with rsl := u.rsl, icnt := u.icnt } := by
    rw [randinitStart, afterSeedPass_congr u u']
    rfl
  have hregen : regen (randinitStart u seed) = { regen (randinitStart u' seed) with icnt := u.icnt } := by
    rw [hstart, ← regen_with_rsl (randinitStart u' seed) u.rsl]
    exact regen_with_icnt { randinitStart u' seed with rsl := u.rsl } u.icnt
  rw [randinit_eq, hregen, randinit_eq]

/-! ### The cursor law (R108) -/

/-- Block `q` of the stream: the one RANDINIT made, regenerated `q` times. -/
def block (u : Isaac) (seed : Pool) (q : Nat) : Isaac := regen^[q] (randinit u seed)

theorem block_succ (u : Isaac) (seed : Pool) (q : Nat) : block u seed (q + 1) = regen (block u seed q) :=
  Function.iterate_succ_apply' _ _ _

/-- ICC counts the blocks (R105). -/
theorem block_icc (u : Isaac) (seed : Pool) (q : Nat) : (block u seed q).icc = BitVec.ofNat 64 (q + 1) := by
  induction q with
  | zero => exact randinit_icc u seed
  | succ q ih => rw [block_succ, regen_icc, ih]; exact (BitVec.ofNat_add (q + 1) 1).symm

/-- ISAAC_NEXT on a block with `c + 1` words left. -/
theorem isaacNext_in_block {v : Isaac} {c : Nat} (hc : c < 256) :
    isaacNext { v with icnt := ⟨c + 1, by omega⟩ } = (v.rsl[c], { v with icnt := ⟨c, by omega⟩ }) :=
  isaacNext_of_succ (c := ⟨c, by omega⟩) (j := ⟨c, hc⟩) rfl rfl

/-- The unit after `j + 1` calls, and the word of the last one (R108). -/
theorem isaacNext_afterWords (u : Isaac) (seed : Pool) (j : Nat) :
    isaacNext (afterWords j (randinit u seed)) =
      ((block u seed (j / 256)).rsl[255 - j % 256],
        { block u seed (j / 256) with icnt := ⟨255 - j % 256, by omega⟩ }) := by
  induction j with
  | zero => exact isaacNext_of_succ (c := 255) (j := 255) (congrArg Fin.val (randinit_icnt u seed)).symm rfl
  | succ j ih =>
    rw [afterWords_succ, ih]
    by_cases hlast : j % 256 = 255
    · have hdiv : (j + 1) / 256 = j / 256 + 1 := by omega
      have hmod : (j + 1) % 256 = 0 := by omega
      rw [isaacNext_of_zero _ (Fin.ext (by simp [hlast])), regen_with_icnt, hdiv, block_succ]
      simp only [hmod]
      rfl
    · have hdiv : (j + 1) / 256 = j / 256 := by omega
      have hcur : 255 - j % 256 = 255 - (j + 1) % 256 + 1 := by omega
      simp only [hdiv, hcur]
      exact isaacNext_in_block (by omega)

/-- The cursor is 256 only before the first call (R108). -/
theorem afterWords_icnt_eq_256_iff (u : Isaac) (seed : Pool) (j : Nat) :
    (afterWords j (randinit u seed)).icnt = 256 ↔ j = 0 := by
  cases j with
  | zero => exact iff_of_true (randinit_icnt u seed) rfl
  | succ j =>
    rw [afterWords_succ, isaacNext_afterWords]
    refine iff_of_false (fun h => ?_) (Nat.succ_ne_zero j)
    have hval : 255 - j % 256 = 256 := congrArg Fin.val h
    omega

/-! ### The obligations -/

/-- Settles O33: MIX is its 24 operations, and the constants are computed. -/
theorem goldenMix : Obligations.GoldenMix := by
  unfold Obligations.GoldenMix
  refine ⟨fun a b c d e f g h => rfl, rfl, ?_⟩
  decide

/-- Settles O36: the sequence is the loop's, and the last step leaves its `b` in RSL[255]. -/
theorem regenEffect : Obligations.RegenEffect := by
  unfold Obligations.RegenEffect
  refine fun u => ⟨⟨fun n => sweep n (sweepStart u), rfl, fun m _ => sweep_succ m _, regen_eq u⟩, regen_ibb u,
    fun h0 => ?_⟩
  rw [isaacNext_of_zero u h0]
  exact ⟨(regen_ibb u).symm, rfl⟩

/-- Settles O38: RANDINIT reads nothing of the unit it replaces. -/
theorem seedAloneDeterminesTheStream : Obligations.SeedAloneDeterminesTheStream := by
  unfold Obligations.SeedAloneDeterminesTheStream
  have hsame {t1 t2 : State} (h : t1.isaac = t2.isaac) : t1.isaac = t2.isaac
      ∧ ∀ j, (isaacNext (afterWords j t1.isaac)).1 = (isaacNext (afterWords j t2.isaac)).1 :=
    ⟨h, fun j => by rw [h]⟩
  refine fun s1 s2 t1 t2 => ⟨fun hseed h1 h2 => hsame ?_, fun hdraws h1 h2 => hsame ?_⟩
  · rw [next_unique h1 ((iseedEffect s1 256).1 rfl), next_unique h2 ((iseedEffect s2 256).1 rfl)]
    exact (randinit_congr s1.isaac s2.isaac s1.seed).trans (congrArg _ hseed)
  · obtain ⟨p1, hp1, e1⟩ := (iseedEffect s1 0).2.1 rfl
    obtain ⟨p2, hp2, e2⟩ := (iseedEffect s2 0).2.1 rfl
    have hp : p1 = p2 := Pool.ext8 fun i => (hp1 i).trans (hdraws ▸ (hp2 i).symm)
    rw [next_unique h1 e1, next_unique h2 e2]
    exact (randinit_congr s1.isaac s2.isaac p1).trans (congrArg _ hp)

/-- Settles O40: the calls run down a block and then regenerate it. -/
theorem cursorLaw : Obligations.CursorLaw := by
  unfold Obligations.CursorLaw
  intro u seed j u0
  rw [isaacNext_afterWords]
  exact ⟨rfl, block_icc u seed _, rfl, randinit_icc u seed, afterWords_icnt_eq_256_iff u seed j⟩

end Sys2Proof.Machine

/-! ### The size of the packed integer and the words it takes (42_bitpacker.md R153, R157, R158) -/

namespace Sys2Proof.Machine

section
variable {σ : Type} (next : σ → Word × σ) {chunk : Nat → Word → Nat}

/-- `n` bits packed are below `2 ^ n` and take ceil(n / 64) words, for any generator and chunk rule (R157, R158). -/
theorem packLoop_lt_and_draws (hchunk : ChunkFits chunk) (n : Nat) (u : σ) :
    (packLoop next chunk n n 0 u).1 < 2 ^ n
      ∧ (packLoop next chunk n n 0 u).2 = (fun v => (next v).2)^[(n + 63) / 64] u := by
  induction n using Nat.strong_induction_on generalizing u with
  | _ n ih =>
    obtain rfl | hone | ⟨m, rfl⟩ : n = 0 ∨ (1 ≤ n ∧ n ≤ 64) ∨ ∃ m, n = 64 + m := by
      by_cases h : 64 ≤ n
      · exact .inr (.inr ⟨n - 64, by omega⟩)
      · omega
    · rw [packLoop_rem_zero]
      exact ⟨Nat.one_pos, rfl⟩
    · have hwords : (n + 63) / 64 = 1 := by omega
      rw [packLoop_one_word next n u hone.1 hone.2, hwords]
      exact ⟨hchunk _ _ hone.2, rfl⟩
    · obtain ⟨hlt, hdraws⟩ := ih m (by omega) (next u).2
      have hwords : (64 + m + 63) / 64 = (m + 63) / 64 + 1 := by omega
      have hfirst := hchunk 64 (next u).1 le_rfl
      rw [packLoop_whole_word next hchunk, hwords, Function.iterate_succ_apply]
      refine ⟨?_, hdraws⟩
      calc chunk 64 (next u).1 * 2 ^ m + (packLoop next chunk m m 0 (next u).2).1
          < chunk 64 (next u).1 * 2 ^ m + 2 ^ m := Nat.add_lt_add_left hlt _
        _ = (chunk 64 (next u).1 + 1) * 2 ^ m := (Nat.succ_mul _ _).symm
        _ ≤ 2 ^ 64 * 2 ^ m := Nat.mul_le_mul_right _ hfirst
        _ = 2 ^ (64 + m) := (Nat.pow_add 2 64 m).symm

end

theorem packHigh_lt (n : Nat) (u : Isaac) : (packHigh n u).1 < 2 ^ n :=
  (packLoop_lt_and_draws isaacNext chunkHigh_fits n u).1

theorem packHigh_draws (n : Nat) (u : Isaac) : (packHigh n u).2 = afterWords ((n + 63) / 64) u :=
  (packLoop_lt_and_draws isaacNext chunkHigh_fits n u).2

theorem packLow_lt (n : Nat) (x : Xorshift) : (packLow n x).1 < 2 ^ n :=
  (packLoop_lt_and_draws xsNext chunkLow_fits n x).1

theorem packLow_draws (n : Nat) (x : Xorshift) : (packLow n x).2 = afterXsWords ((n + 63) / 64) x :=
  (packLoop_lt_and_draws xsNext chunkLow_fits n x).2

/-- BIG holds a legal number of bits without loss (R153). -/
theorem bigval_toLimbs_of_lt {limbs n v : Nat} (hn : n ≤ 64 * limbs) (hv : v < 2 ^ n) :
    bigval (toLimbs limbs v) = v :=
  bigval_toLimbs limbs v (lt_of_lt_of_le hv (Nat.pow_le_pow_right two_pos hn))

/-- The limbs from ceil(n / 64) on are 0 (R153). -/
theorem toLimbs_high_zero {limbs n v i : Nat} {w : Word} (hv : v < 2 ^ n) (hi : (n + 63) / 64 ≤ i)
    (h : (toLimbs limbs v)[i]? = some w) : w = 0 := by
  have hlt : v < 2 ^ (64 * i) := lt_of_lt_of_le hv (Nat.pow_le_pow_right two_pos (by omega))
  rw [eq_of_toLimbs_getElem? h, Nat.div_eq_of_lt hlt]
  rfl

/-! ### The obligations -/

/-- Settles O44: the packed integer is below `2 ^ n`, so it fits in the limbs. -/
theorem bigHoldsThePackedInteger : Obligations.BigHoldsThePackedInteger := by
  unfold Obligations.BigHoldsThePackedInteger
  refine fun s t n h1 hn => ⟨fun hs h => ?_, fun hs h => ?_⟩
  · rw [next_unique h (execIrandbits_of_seeded h1 hn hs)]
    exact ⟨bigval_toLimbs_of_lt hn (packHigh_lt n _), toLimbs_length _ _,
      fun i w => toLimbs_high_zero (packHigh_lt n _)⟩
  · rw [next_unique h (execXrandbits_of_seeded h1 hn hs)]
    exact ⟨bigval_toLimbs_of_lt hn (packLow_lt n _), toLimbs_length _ _,
      fun i w => toLimbs_high_zero (packLow_lt n _)⟩

/-- Settles O45: BIG holds the packed integer (O44), which is below `2 ^ n`. -/
theorem randbitsRange : Obligations.RandbitsRange := by
  unfold Obligations.RandbitsRange
  refine fun s t n h1 hn => ⟨fun hs h => ?_, fun hs h => ?_⟩
  · rw [((bigHoldsThePackedInteger s t n h1 hn).1 hs h).1]
    exact packHigh_lt n s.isaac
  · rw [((bigHoldsThePackedInteger s t n h1 hn).2 hs h).1]
    exact packLow_lt n s.xs

/-- Settles O46: each iteration of the packer takes one word and up to 64 bits. -/
theorem randbitsWordCount : Obligations.RandbitsWordCount := by
  unfold Obligations.RandbitsWordCount
  refine fun s t n h1 hn => ⟨fun hs h => ?_, fun hs h => ?_⟩
  · rw [next_unique h (execIrandbits_of_seeded h1 hn hs)]
    exact ⟨packHigh_draws n s.isaac, rfl⟩
  · rw [next_unique h (execXrandbits_of_seeded h1 hn hs)]
    exact ⟨packLow_draws n s.xs, rfl⟩

end Sys2Proof.Machine

/-! ### Verdicts and draws of the primality tests (43_primality.md R176, R179 to R183) -/

namespace Sys2Proof.Machine

/-! ### Everything a test can do -/

/-- The state a test of `n` leaves, with `trial` as one trial (R177, R178). -/
def runTest (trial : Nat → Nat → Bool) (n : Nat) (s : State) : State :=
  finishTest (primalityTest s.oracle trial n s.env.baseDraws) s

theorem exec_fermat_eq {s : State} {n : Nat} (hn : bigval s.num = n) :
    exec .fermat s = .next (runTest fermatTrial n s) := by
  subst hn
  rfl

theorem exec_millerrabin_eq {s : State} {n : Nat} (hn : bigval s.num = n) :
    exec .millerrabin s = .next (runTest mrTrial n s) := by
  subst hn
  rfl

/-- A test by its guards (R173, R175, R179): a number below 5 or even. -/
theorem runTest_small (trial : Nat → Nat → Bool) {n : Nat} (s : State) (h : n < 5 ∨ n % 2 = 0) :
    runTest trial n s =
      { s with res := if n = 2 ∨ n = 3 then 1 else 0, status := { s.status with err := .ok } } := by
  by_cases hp : n = 2 ∨ n = 3
  · rw [if_pos hp]
    exact finishTest_smallPrime s trial hp
  · rw [if_neg hp]
    exact finishTest_smallOrEven s trial h hp

/-- The three ends of a test of an odd `n` of at least 5: a fixed base out of range, every trial passed, or a first
trial that failed (R173, R175, R176). -/
inductive OddTestResult (trial : Nat → Nat → Bool) (n : Nat) (s : State) : State → Prop
  | outOfRange (hb : baseOutOfRange s n) : OddTestResult trial n s (raise .baserange s)
  | passed (h : ∀ i < s.oracle.k.toNat, trial n (trialBase s n i) = true) :
      OddTestResult trial n s
        { s with res := 1, status := { s.status with err := .ok }
                 env := { s.env with baseDraws := drawsAfter s s.oracle.k.toNat } }
  | failed (j : Nat) (hb : ¬baseOutOfRange s n) (hj : j < s.oracle.k.toNat)
      (hpass : ∀ i < j, trial n (trialBase s n i) = true) (hfail : trial n (trialBase s n j) = false) :
      OddTestResult trial n s
        { s with res := 0, status := { s.status with err := .ok }
                 env := { s.env with baseDraws := drawsAfter s (j + 1) } }

theorem runTest_odd (trial : Nat → Nat → Bool) {n : Nat} (s : State) (h5 : 5 ≤ n) (hodd : n % 2 = 1) :
    OddTestResult trial n s (runTest trial n s) := by
  by_cases hb : baseOutOfRange s n
  · by_cases hk : s.oracle.k = 0
    · have hzero : s.oracle.k.toNat = 0 := by rw [hk]; rfl
      have hrun : runTest trial n s = { s with res := 1, status := { s.status with err := .ok }
                                               env := { s.env with baseDraws := drawsAfter s s.oracle.k.toNat } } := by
        rw [runTest, primalityTest_odd _ _ _ _ h5 hodd, hzero, drawsAfter_zero]
        rfl
      rw [hrun]
      exact .passed fun i hi => absurd hi (by omega)
    · rw [runTest, finishTest_outOfRange trial h5 hodd hk hb]
      exact .outOfRange hb
  · have hruns := runTrials_cases hb (trial n) s.oracle.k.toNat 0
    simp only [Nat.zero_add, drawsAfter_zero] at hruns
    rw [runTest, primalityTest_odd _ _ _ _ h5 hodd]
    rcases hruns with ⟨hall, e⟩ | ⟨j, hj, hpass, hfail, e⟩ <;> rw [e]
    · exact .passed hall
    · exact .failed j hb hj hpass hfail

/-! ### Draws (R176, R183) -/

theorem drawsAfter_of_drawn {s : State} (hf : s.oracle.fixb = false) (t : Nat) :
    drawsAfter s t = s.env.baseDraws + t := by
  simp [drawsAfter, hf]

theorem drawsAfter_of_fixed {s : State} (hf : s.oracle.fixb = true) (t : Nat) : drawsAfter s t = s.env.baseDraws := by
  simp [drawsAfter, hf]

theorem not_baseOutOfRange_of_drawn {s : State} (hf : s.oracle.fixb = false) (n : Nat) : ¬baseOutOfRange s n :=
  fun ⟨hfix, _⟩ => Bool.false_ne_true (hf.symm.trans hfix)

/-- The draws of a test with drawn bases: one for each trial that was run (R183). -/
theorem runTest_draws {trial : Nat → Nat → Bool} {n : Nat} {s : State} {passes : Nat → Prop}
    (htrial : ∀ a, trial n a = true ↔ passes a) (h5 : 5 ≤ n) (hodd : n % 2 = 1) (hf : s.oracle.fixb = false) :
    ((runTest trial n s).res = 1 → (runTest trial n s).env.baseDraws = s.env.baseDraws + s.oracle.k.toNat)
      ∧ ((runTest trial n s).res = 0 → ∃ j, 1 ≤ j ∧ j ≤ s.oracle.k.toNat
          ∧ (runTest trial n s).env.baseDraws = s.env.baseDraws + j
          ∧ ¬passes (trialBase s n (j - 1)) ∧ ∀ i, i + 1 < j → passes (trialBase s n i)) := by
  have hone : (1 : Word) ≠ 0 := by decide
  have hcases := runTest_odd trial s h5 hodd
  generalize runTest trial n s = t at hcases ⊢
  cases hcases with
  | outOfRange hb => exact absurd hb (not_baseOutOfRange_of_drawn hf n)
  | passed h => exact ⟨fun _ => drawsAfter_of_drawn hf _, fun h0 => absurd h0 hone⟩
  | failed j hb hj hpass hfail =>
    refine ⟨fun h1 => absurd h1 hone.symm, fun _ => ⟨j + 1, by omega, hj, drawsAfter_of_drawn hf _, ?_, ?_⟩⟩
    · exact fun hp => Bool.false_ne_true (hfail.symm.trans ((htrial _).2 hp))
    · exact fun i hi => (htrial _).1 (hpass i (by omega))

/-- A test decided by the guards or with a fixed base draws nothing (R183). -/
theorem runTest_no_draws (trial : Nat → Nat → Bool) {n : Nat} {s : State}
    (h : n < 5 ∨ n % 2 = 0 ∨ s.oracle.fixb = true) : (runTest trial n s).env.baseDraws = s.env.baseDraws := by
  by_cases hsmall : n < 5 ∨ n % 2 = 0
  · rw [runTest_small trial s hsmall]
  · have hf : s.oracle.fixb = true := by tauto
    have hcases := runTest_odd trial (n := n) s (by omega) (by omega)
    generalize runTest trial n s = t at hcases ⊢
    cases hcases with
    | outOfRange hb => rfl
    | passed h => exact drawsAfter_of_fixed hf _
    | failed j hb hj hpass hfail => exact drawsAfter_of_fixed hf _

/-- A base in use lies in [2, n-2], drawn or fixed (R8, R176). -/
theorem trialBase_mem {s : State} {n : Nat} (h5 : 5 ≤ n) (hb : ¬baseOutOfRange s n) (t : Nat) :
    2 ≤ trialBase s n t ∧ trialBase s n t ≤ n - 2 := by
  unfold trialBase
  split
  next hf =>
    have hin : ¬(s.oracle.obase.toNat < 2 ∨ n - 2 < s.oracle.obase.toNat) := fun h => hb ⟨hf, h⟩
    omega
  next => exact drawBase_mem _ 2 (n - 2) (by omega)

/-! ### More trials (R180) -/

/-- A test that answers 0 answers 0 with more trials: the trial that failed is run again (R180). -/
theorem runTest_more_trials {trial : Nat → Nat → Bool} {n : Nat} {s : State} {k : BitVec 16}
    (hk : s.oracle.k.toNat ≤ k.toNat) (herr : (runTest trial n s).status.err = .ok)
    (hres : (runTest trial n s).res = 0) :
    (runTest trial n { s with oracle := { s.oracle with k := k } }).status.err = .ok
      ∧ (runTest trial n { s with oracle := { s.oracle with k := k } }).res = 0 := by
  by_cases hsmall : n < 5 ∨ n % 2 = 0
  · rw [runTest_small trial _ hsmall] at hres ⊢
    exact ⟨rfl, hres⟩
  · have h5 : 5 ≤ n := by omega
    have hodd : n % 2 = 1 := by omega
    have hs := runTest_odd trial s h5 hodd
    have hs' := runTest_odd trial { s with oracle := { s.oracle with k := k } } h5 hodd
    generalize runTest trial n s = t at *
    generalize runTest trial n { s with oracle := { s.oracle with k := k } } = t' at *
    cases hs with
    | outOfRange hb => cases herr
    | passed h => exact absurd hres (show (1 : Word) ≠ 0 by decide)
    | failed j hb hj hpass hfail =>
      cases hs' with
      | outOfRange hb' => exact absurd hb' hb
      | passed h => exact absurd ((h j (lt_of_lt_of_le hj hk)).symm.trans hfail) (by decide)
      | failed j' _ _ _ _ => exact ⟨rfl, rfl⟩

/-! ### The two trials compared, and of a prime (R181, R182) -/

/-- A power that is 1 modulo `n` stays 1 when the exponent is multiplied. -/
theorem pow_mul_mod_eq_one {a d k n : Nat} (hn : 2 ≤ n) (h : a ^ d % n = 1) : a ^ (d * k) % n = 1 := by
  rw [pow_mul, Nat.pow_mod, h, one_pow, Nat.mod_eq_of_lt hn]

/-- The square of -1 modulo `n` is 1. -/
theorem pow_mul_two_mod_eq_one {a d n : Nat} (hn : 2 ≤ n) (h : a ^ d % n = n - 1) : a ^ (d * 2) % n = 1 := by
  have hsq : (n - 1) ^ 2 = n * (n - 2) + 1 := by
    obtain ⟨m, rfl⟩ : ∃ m, n = m + 2 := ⟨n - 2, by omega⟩
    rw [Nat.add_sub_cancel, show m + 2 - 1 = m + 1 by omega]
    ring
  rw [pow_mul, Nat.pow_mod, h, hsq, Nat.mul_add_mod, Nat.mod_eq_of_lt hn]

/-- R181 in the terms of the rules: a^(n-1) is a power of the a^s or of the a^(2^(i+1) s) that is 1. -/
theorem fermatPasses_of_millerRabinPasses {n a : Nat} (hn : 2 ≤ n) (h : MillerRabinPasses n a) : FermatPasses n a := by
  obtain ⟨r, s, hdec, -, hone | ⟨i, hi, hneg⟩⟩ := h
  · rw [FermatPasses, hdec, Nat.mul_comm]
    exact pow_mul_mod_eq_one hn hone
  · have hexp : n - 1 = 2 ^ i * s * 2 * 2 ^ (r - (i + 1)) := by
      have hr : r = i + 1 + (r - (i + 1)) := by omega
      rw [hdec, hr, pow_add, pow_succ]
      simp only [Nat.add_sub_cancel_left]
      ring
    rw [FermatPasses, hexp]
    exact pow_mul_mod_eq_one hn (pow_mul_two_mod_eq_one hn hneg)

/-- Fermat's little theorem (R182). -/
theorem fermatPasses_of_prime {p a : Nat} (hp : p.Prime) (ha : 0 < a) (hlt : a < p) : FermatPasses p a := by
  have hcop : a.Coprime p := (Nat.coprime_of_lt_prime ha.ne' hlt hp).symm
  have h := Nat.ModEq.pow_totient hcop
  rw [Nat.totient_prime hp, Nat.ModEq, Nat.mod_eq_of_lt hp.one_lt] at h
  exact h

/-- Modulo a prime only 1 and -1 have the square 1. -/
theorem mod_eq_of_sq_mod_eq_one {p x : Nat} (hp : p.Prime) (h : x ^ 2 % p = 1) : x % p = 1 ∨ x % p = p - 1 := by
  have hx : 1 ≤ x := by
    by_contra hx
    obtain rfl : x = 0 := by omega
    simp at h
  have h1p := hp.one_lt
  have hmod : 1 ≡ x ^ 2 [MOD p] := (Nat.mod_eq_of_lt h1p).trans h.symm
  have hdvd : p ∣ (x + 1) * (x - 1) := by
    rw [← Nat.sq_sub_sq x 1]
    exact (Nat.modEq_iff_dvd' (Nat.one_le_pow _ _ hx)).1 hmod
  rcases hp.dvd_mul.1 hdvd with hplus | hminus
  · have hlt := Nat.mod_lt x hp.pos
    have hzero : (x % p + 1) % p = 0 := by rw [Nat.mod_add_mod]; exact Nat.mod_eq_zero_of_dvd hplus
    by_contra hne
    rw [Nat.mod_eq_of_lt (by omega)] at hzero
    omega
  · have hmod : x % p = 1 % p := ((Nat.modEq_iff_dvd' hx).2 hminus).symm
    exact .inl (hmod.trans (Nat.mod_eq_of_lt h1p))

/-- Halving the exponent of a power that is 1, modulo a prime, ends at an odd exponent or meets -1 (R182). -/
theorem millerRabin_descent {p a s : Nat} (hp : p.Prime) (r : Nat) (h : a ^ (2 ^ r * s) % p = 1) :
    a ^ s % p = 1 ∨ ∃ i < r, a ^ (2 ^ i * s) % p = p - 1 := by
  induction r with
  | zero => exact .inl (by simpa using h)
  | succ r ih =>
    have hsq : (a ^ (2 ^ r * s)) ^ 2 % p = 1 := by
      rw [← pow_mul, Nat.mul_right_comm, ← pow_succ]
      exact h
    rcases mod_eq_of_sq_mod_eq_one hp hsq with hone | hneg
    · exact (ih hone).imp_right fun ⟨i, hi, hmod⟩ => ⟨i, by omega, hmod⟩
    · exact .inr ⟨r, by omega, hneg⟩

theorem millerRabinPasses_of_prime {p a : Nat} (hp : p.Prime) (ha : 0 < a) (hlt : a < p) : MillerRabinPasses p a := by
  have h1p := hp.one_lt
  obtain ⟨r, s, hs, hdec⟩ := exists_two_pow_mul (show p - 1 ≠ 0 by omega)
  have hfermat := fermatPasses_of_prime hp ha hlt
  rw [FermatPasses, hdec] at hfermat
  exact ⟨r, s, hdec, hs, millerRabin_descent hp r hfermat⟩

/-- A prime passes a test all of whose trials it passes (R182). -/
theorem runTest_prime {trial : Nat → Nat → Bool} {n : Nat} {s : State} (hp : n.Prime)
    (htrial : 5 ≤ n → n % 2 = 1 → ∀ a, 0 < a → a < n → trial n a = true) (hb : 5 ≤ n → ¬baseOutOfRange s n) :
    (runTest trial n s).res = 1 ∧ (runTest trial n s).status.err = .ok := by
  by_cases hsmall : n = 2 ∨ n = 3
  · rw [runTest_small trial s (.inl (by omega)), if_pos hsmall]
    exact ⟨rfl, rfl⟩
  · have hodd : n % 2 = 1 := hp.eq_two_or_odd.resolve_left fun h => hsmall (.inl h)
    have h5 : 5 ≤ n := by
      have := hp.two_le
      omega
    have hcases := runTest_odd trial s h5 hodd
    generalize runTest trial n s = t at hcases ⊢
    cases hcases with
    | outOfRange hout => exact absurd hout (hb h5)
    | passed h => exact ⟨rfl, rfl⟩
    | failed j hin hj hpass hfail =>
      obtain ⟨hlo, hhi⟩ := trialBase_mem h5 (hb h5) j
      exact absurd (htrial h5 hodd _ (by omega) (by omega)) (Bool.eq_false_iff.1 hfail)

/-! ### The obligations -/

/-- Settles O51: the base source answers within the range asked for, call after call. -/
theorem drawnBasesAreInRange : Obligations.DrawnBasesAreInRange := by
  unfold Obligations.DrawnBasesAreInRange
  intro s n t d h5 hf
  obtain ⟨hlo, hhi⟩ := trialBase_mem h5 (not_baseOutOfRange_of_drawn hf n) t
  refine ⟨hlo, hhi, ?_⟩
  rcases getBase_cases s.oracle n d with ⟨-, e⟩ | ⟨hf', -⟩ | ⟨hf', -⟩
  · rw [e, trialBase, if_neg (Bool.eq_false_iff.1 hf)]
    rfl
  · cases hf.symm.trans hf'
  · cases hf.symm.trans hf'

/-- Settles O52: a trial draws one base, a fixed base and the guards none. -/
theorem drawCount : Obligations.DrawCount := by
  unfold Obligations.DrawCount
  intro s t n hn
  rw [exec_fermat_eq hn, exec_millerrabin_eq hn]
  simp only [Host.Outcome.next.injEq]
  refine ⟨?_, ?_, ?_⟩
  · rintro h5 hodd hf rfl
    exact runTest_draws (fermatTrial_iff n) h5 hodd hf
  · rintro h5 hodd hf rfl
    exact runTest_draws (mrTrial_iff h5 hodd) h5 hodd hf
  · rintro h (rfl | rfl) <;> exact runTest_no_draws _ h

/-- Settles O53: the guards are the same for both tests. -/
theorem smallNumbersTable : Obligations.SmallNumbersTable := by
  unfold Obligations.SmallNumbersTable
  intro s n hn h
  rw [exec_fermat_eq hn, exec_millerrabin_eq hn, runTest_small _ s h, runTest_small _ s h]
  by_cases hp : n = 2 ∨ n = 3
  · rw [if_pos hp]
    exact ⟨1, iff_of_true rfl hp, iff_of_false (by decide) (not_not_intro hp), rfl, rfl⟩
  · rw [if_neg hp]
    exact ⟨0, iff_of_false (by decide) hp, iff_of_true rfl hp, rfl, rfl⟩

/-- Settles O54: the trial that failed is among the trials of the longer run, with the same base. -/
theorem moreTrialsNeverTurnZeroIntoOne : Obligations.MoreTrialsNeverTurnZeroIntoOne := by
  unfold Obligations.MoreTrialsNeverTurnZeroIntoOne
  intro s t t' k hk s'
  refine ⟨fun h h' => ?_, fun h h' => ?_⟩
  · rw [next_unique h (exec_fermat_eq rfl), next_unique h' (exec_fermat_eq rfl)]
    exact runTest_more_trials hk
  · rw [next_unique h (exec_millerrabin_eq rfl), next_unique h' (exec_millerrabin_eq rfl)]
    exact runTest_more_trials hk

/-- Settles O55: the definitions of R173 and R175 compared, and 341 computed. -/
theorem millerRabinImpliesFermat : Obligations.MillerRabinImpliesFermat := by
  unfold Obligations.MillerRabinImpliesFermat
  refine ⟨fun n a h5 hodd h => ?_, ?_, ?_⟩
  · exact (fermatTrial_iff n a).2 (fermatPasses_of_millerRabinPasses (by omega) ((mrTrial_iff h5 hodd a).1 h))
  · have h340 : 341 - 1 = 10 * 34 := rfl
    rw [fermatTrial_iff, FermatPasses, h340]
    exact pow_mul_mod_eq_one (by decide) (by decide)
  · have h341 : (341 : Nat) - 1 = 2 ^ 2 * 85 := rfl
    rw [Bool.eq_false_iff, ne_eq, mrTrial_iff_of_decomposition 2 (by decide) (by decide) h341]
    decide

/-- Settles O56: Fermat's little theorem, and square roots of 1 modulo a prime. -/
theorem primesAlwaysPass : Obligations.PrimesAlwaysPass := by
  unfold Obligations.PrimesAlwaysPass
  intro s n hn hp hb
  refine ⟨⟨_, exec_fermat_eq hn, runTest_prime hp (fun _ _ a ha hlt => ?_) hb⟩,
    ⟨_, exec_millerrabin_eq hn, runTest_prime hp (fun h5 hodd a ha hlt => ?_) hb⟩⟩
  · exact (fermatTrial_iff n a).2 (fermatPasses_of_prime hp ha hlt)
  · exact (mrTrial_iff h5 hodd a).2 (millerRabinPasses_of_prime hp ha hlt)

end Sys2Proof.Machine

/-! ### The invariant through resets and steps (R28, R35, R37, R38, R109, R136) -/

namespace Sys2Proof.Machine

/-- The invariant reads no more of a state than its array sizes, its configuration, and the two units with their
flags. -/
theorem BlockInv.of_eq {s t : State} (h : BlockInv s) (hwf : t.wf = s.wf) (ho : t.oracle = s.oracle) (hx : t.xs = s.xs)
    (hxs : t.status.xseeded = s.status.xseeded) (hi : t.isaac = s.isaac)
    (his : t.status.iseeded = s.status.iseeded) : BlockInv t where
  sizes := hwf.trans h.sizes
  trials := ho ▸ h.trials
  nondegenerate hs := hx ▸ h.nondegenerate (hxs ▸ hs)
  lastWord hs := hi ▸ h.lastWord (his ▸ hs)

/-! ### The units (R109, R136) -/

theorem xorshift_ne_zero_iff {x : Xorshift} : x ≠ { s0 := 0, s1 := 0 } ↔ ¬(x.s0 = 0 ∧ x.s1 = 0) := by
  obtain ⟨s0, s1⟩ := x
  exact not_congr (by rw [Xorshift.mk.injEq])

/-- A unit away from (0, 0) is away from it after any number of words (R136). -/
theorem afterXsWords_nondegenerate {x : Xorshift} (h : ¬(x.s0 = 0 ∧ x.s1 = 0)) (j : Nat) :
    ¬((afterXsWords j x).s0 = 0 ∧ (afterXsWords j x).s1 = 0) :=
  xorshift_ne_zero_iff.1 (afterXsWords_ne_zero (xorshift_ne_zero_iff.2 h) j)

/-- A legal K stays a legal K in its 16 bits (R28, R171). -/
theorem ofNat_ne_zero_of_fits {k : Nat} (hk : k ≠ 0) (hfit : fitsImm16 k = true) : BitVec.ofNat 16 k ≠ 0 := by
  intro h
  have hzero : (BitVec.ofNat 16 k).toNat = 0 := congrArg BitVec.toNat h
  rw [toNat_ofNat_of_fits hfit] at hzero
  exact hk hzero

/-! ### Instructions -/

/-- A command whose operand fits its field keeps the invariant (R82). -/
theorem CommandResult.keeps_inv {i : Instr} {s t : State} (hwf : i.wellFormed = true) (h : BlockInv s)
    (hr : CommandResult s i t) : BlockInv t := by
  cases hr with
  | error i c => exact ⟨h.sizes, h.trials, h.nondegenerate, h.lastWord⟩
  | nop => exact ⟨h.sizes, h.trials, h.nondegenerate, h.lastWord⟩
  | iseedDrawn => exact ⟨h.sizes, h.trials, h.nondegenerate, fun _ => randinit_lastWord _ _⟩
  | iseedBuffer => exact ⟨h.sizes, h.trials, h.nondegenerate, fun _ => randinit_lastWord _ _⟩
  | inext hs => exact ⟨h.sizes, h.trials, h.nondegenerate, fun _ => isaacNext_lastWord (h.lastWord hs)⟩
  | irandbits n h1 hn hs =>
    refine ⟨writeBig_wf _ s h.sizes, h.trials, h.nondegenerate, fun _ => ?_⟩
    have hlast := afterWords_lastWord (h.lastWord hs) ((n + 63) / 64)
    rwa [← packHigh_draws] at hlast
  | xseed h0 => exact ⟨h.sizes, h.trials, fun _ => h0, h.lastWord⟩
  | xnext hs => exact ⟨h.sizes, h.trials, fun _ => afterXsWords_nondegenerate (h.nondegenerate hs) 1, h.lastWord⟩
  | xrandbits n h1 hn hs =>
    refine ⟨writeBig_wf _ s h.sizes, h.trials, fun _ => ?_, h.lastWord⟩
    have hnon := afterXsWords_nondegenerate (h.nondegenerate hs) ((n + 63) / 64)
    rwa [← packLow_draws] at hnon
  | ocfg k f hk => exact ⟨h.sizes, ofNat_ne_zero_of_fits hk hwf, h.nondegenerate, h.lastWord⟩
  | test i hi v d => exact ⟨h.sizes, h.trials, h.nondegenerate, h.lastWord⟩

/-- An access keeps the arrays' sizes (R37, R38, R64). -/
theorem exec_access_wf {i : Instr} {s t : State} (hc : i.isCommand = false) (h : exec i s = .next t) : t.wf = s.wf := by
  cases i with
  | hwr a v =>
    rcases execHwr_cases a v s with ⟨-, e⟩ | ⟨-, -, e⟩ | ⟨-, -, -, e⟩ | ⟨-, -, r, -, -, e⟩ <;> rw [next_unique h e]
    · rfl
    · exact flagBadaddr_wf s
    · exact flagOvr_wf s
    · exact store_wf r v s
  | hrd a =>
    obtain ⟨v, d, rfl⟩ := execHrd_writes h
    rfl
  | _ => cases hc

theorem exec_access_inv {i : Instr} {s t : State} (hc : i.isCommand = false) (hinv : BlockInv s)
    (h : exec i s = .next t) : BlockInv t :=
  have hf := exec_access_frame hc h
  hinv.of_eq (exec_access_wf hc h) hf.oracle hf.xs hf.xseeded hf.isaac hf.iseeded

/-! ### Steps and reset -/

/-- The engine runs only commands that a word encodes, so an operand fits its field (R82, R200). -/
theorem engineTurn_inv {s t : State} (hinv : BlockInv s) (h : engineTurn s = .next t) : BlockInv t := by
  rcases engineTurn_cases s with ⟨-, e⟩ | ⟨-, i, hd, e⟩ | ⟨-, -, e⟩
  · rwa [next_unique h e]
  · obtain ⟨u, hu⟩ := exec_next i s
    rw [hu] at e
    have huinv := (exec_command_result (decodeCommand_isCommand hd) hu).keeps_inv (encode_of_decodeCommand hd).2 hinv
    rw [next_unique h e]
    exact huinv.of_eq (release_wf u) rfl rfl rfl rfl rfl
  · rw [next_unique h e]
    exact hinv.of_eq rfl rfl rfl rfl rfl rfl

theorem setInputs_inv {s : State} (hinv : BlockInv s) (is : List Input) : BlockInv (s.setInputs is) :=
  hinv.of_eq rfl rfl rfl rfl rfl rfl

/-- After reset no unit is seeded and K is 5 (R241). -/
theorem afterReset_inv {limbs : Nat} (env : Env) (h1 : 1 ≤ limbs) (h256 : limbs ≤ 256) :
    BlockInv (State.afterReset limbs env) :=
  ⟨afterReset_wf limbs env h1 h256, show (5 : BitVec 16) ≠ 0 by decide, nofun, nofun⟩

/-! ### The obligations -/

/-- Settles O15: the state after reset meets the invariant for every legal LIMBS, so for four. -/
theorem resetMeetsInv : Obligations.ResetMeetsInv := by
  unfold Obligations.ResetMeetsInv
  exact ⟨fun limbs env h1 h256 => afterReset_inv env h1 h256, afterReset_inv _ (by decide) (by decide), _, rfl, rfl⟩

/-- Settles O16: by the kinds of steps; a command by the cases of `CommandResult`. -/
theorem stepKeepsInv : Obligations.StepKeepsInv := by
  unfold Obligations.StepKeepsInv
  intro s t hinv h
  rcases step_cases s with ⟨-, e⟩ | ⟨rest, -, e⟩ | ⟨r, rest, i, -, hd, e⟩ | ⟨r, rest, err, -, -, e⟩ | ⟨rest, -, e⟩
  · exact engineTurn_inv hinv (e.symm.trans h)
  · exact engineTurn_inv (setInputs_inv hinv rest) (e.symm.trans h)
  · exact exec_access_inv (decodeRecord_isAccess hd) (setInputs_inv hinv rest) (e.symm.trans h)
  · cases e.symm.trans h
  · obtain ⟨h1, h256, -, -⟩ := (wf_iff s).1 hinv.sizes
    rw [next_unique h e]
    exact afterReset_inv _ h1 h256

end Sys2Proof.Machine
